-- ==== Sys2Proof/Word.lean ====
section
/-! DEFINITION. The word type (00_scope.md R5, R6; 20_memory.md R41). -/

namespace Sys2Proof

/-- A Word is a signed integer. R6: "All values in this spec are mathematical integers"; R41: "A model
represents a Word as an integer, not as bytes". The range a finite `WORD_BITS` puts on it is
`Config.inWord` (Machine/Range.lean), checked wherever a result is stored. -/
abbrev Word := Int

end Sys2Proof
end

