-- ==== Sys2Proof/Config.lean ====
section
/-! DEFINITION. The implementation parameters of an instance (00_scope.md R4). No free value stands here:
93_implementation_defined.md models no behaviour as "any value". -/

namespace Sys2Proof

/-- The four implementation parameters of R4; `none` is the spec's `unbounded`. R4: "The model takes the
following parameters as arguments". They stand in `State.cfg`, since the host's form of `exec` has no
argument besides the instruction and the state (notes/assumptions/1.md). -/
structure Config where
  /-- `WORD_BITS`: width W of every Word, or unbounded (mathematical integers). -/
  wordBits : Option Nat
  /-- `MEM_WORDS`: number of memory words that can hold a written value. -/
  memWords : Option Nat
  /-- `IN_CAP`: capacity of the input queue. -/
  inCap : Option Nat
  /-- `OUT_CAP`: capacity of the output queue. -/
  outCap : Option Nat
  deriving DecidableEq, Repr

/-- The instance `State.reset` is given: `WORD_BITS = 64`, the default instance of R4, and the three OPEN
parameters unbounded, as in 95_test_vectors.md. DESIGN CHOICE, unsafe (notes/assumptions/2.md). -/
def Config.default : Config :=
  { wordBits := some 64, memWords := none, inCap := none, outCap := none }

/-- The parameter values R4 admits: `WORD_BITS` at least 8, the other three positive. The step does
not ask for it; the invariant does (notes/assumptions/14.md). -/
def Config.legal (c : Config) : Bool :=
  c.wordBits.all (8 ≤ ·) && c.memWords.all (1 ≤ ·) && c.inCap.all (1 ≤ ·) && c.outCap.all (1 ≤ ·)

end Sys2Proof
end

