-- ==== Sys2Proof/Machine/Range.lean ====
section
/-! DEFINITION. The ISA string (00_scope.md R2), the word range WMIN..WMAX (R5) and the write capacity CAP
(20_memory.md R45). -/

namespace Sys2Proof

/-- The ISA string of an instance (R2): `Intcode-10op-PIR/W` and its WORD_BITS. -/
def Config.isaString (c : Config) : String :=
  "Intcode-10op-PIR/W" ++
    match c.wordBits with
    | none => "unbounded"
    | some w => toString w

/-- `2^(W-1)`, the magnitude of WMIN for a width of `w` bits (R5). -/
def halfRange (w : Nat) : Nat := 2 ^ (w - 1)

/-- `v > WMAX` (R5: `WMAX = 2^(W-1) - 1`, or +∞ when unbounded). -/
def Config.aboveMax (c : Config) (v : Int) : Bool :=
  match c.wordBits with
  | none => false
  | some w => decide ((halfRange w : Int) - 1 < v)

/-- `v < WMIN` (R5: `WMIN = -2^(W-1)`, or -∞ when unbounded). -/
def Config.belowMin (c : Config) (v : Int) : Bool :=
  match c.wordBits with
  | none => false
  | some w => decide (v < -(halfRange w : Int))

/-- `inWord(v)` of R8: true when `WMIN ≤ v ≤ WMAX`. -/
def Config.inWord (c : Config) (v : Int) : Bool := !c.belowMin v && !c.aboveMax v

/-- The smaller of two bounds, where `none` counts as +∞ (R45). -/
def minBound : Option Nat → Option Nat → Option Nat
  | none, b => b
  | a, none => a
  | some a, some b => some (min a b)

/-- The write capacity `CAP = min(MEM_WORDS, WMAX)` of R45; `none` is +∞. -/
def Config.cap (c : Config) : Option Nat :=
  minBound c.memWords (c.wordBits.map fun w => halfRange w - 1)

/-- `a ≥ CAP` (R45). -/
def Config.atCap (c : Config) (a : Int) : Bool :=
  match c.cap with
  | none => false
  | some n => decide ((n : Int) ≤ a)

/-- `n ≤ CAP`, the length a program may have and EXTENT may reach (R45, R201). -/
def Config.fits (c : Config) (n : Nat) : Bool :=
  match c.cap with
  | none => true
  | some m => decide (n ≤ m)

end Sys2Proof
end

