-- ==== Sys2Proof/Syntax.lean ====
section
/-! DEFINITION. The instruction set as data: parameter modes and roles, the ten opcodes, the one inductive
`Instr` with a constructor per row of spec/opcode_table.json, the six fault kinds. -/

namespace Sys2Proof

/-- The addressing mode of one parameter (R65): digit 0, 1 or 2 of the mode number. -/
inductive Mode where
  /-- Digit 0: the raw operand is an address. -/
  | position
  /-- Digit 1: the raw operand is the value; not allowed for a Write role (R68). -/
  | immediate
  /-- Digit 2: the raw operand is an offset from RB. -/
  | relative
  deriving DecidableEq, Repr

/-- The role of a parameter, fixed by the opcode descriptor (R10, R70). -/
inductive Role where
  /-- The value is consumed. -/
  | read
  /-- The value designates a destination address. -/
  | write
  deriving DecidableEq, Repr

/-- One parameter of an instruction: its mode digit and its raw operand word (R60, R66). -/
structure Param where
  /-- Addressing mode. -/
  mode : Mode
  /-- The Word stored at `IP + 1 + i`. -/
  raw : Word
  deriving DecidableEq, Repr

/-- The opcode identifiers of the descriptor table (R70). -/
inductive Opcode where
  | add | mul | inp | out | jnz | jz | lt | eq | arb | halt
  deriving DecidableEq, Repr

/-- One constructor per row of the opcode table (R70), parameters in the order p0, p1, p2. A Write-role
parameter may carry the mode Immediate: the word decodes, and the fault is raised when the parameter is
resolved (R68, R69, R249), so it is no matter of syntax (notes/assumptions/7.md). -/
inductive Instr where
  /-- Opcode 1, ADD p0, p1, p2 (R100). -/
  | add (p0 p1 p2 : Param)
  /-- Opcode 2, MUL p0, p1, p2 (R101). -/
  | mul (p0 p1 p2 : Param)
  /-- Opcode 3, IN p0 (R120); Lean keeps the word `in` for itself. -/
  | inp (p0 : Param)
  /-- Opcode 4, OUT p0 (R121). -/
  | out (p0 : Param)
  /-- Opcode 5, JNZ p0, p1 (R140). -/
  | jnz (p0 p1 : Param)
  /-- Opcode 6, JZ p0, p1 (R141). -/
  | jz (p0 p1 : Param)
  /-- Opcode 7, LT p0, p1, p2 (R160). -/
  | lt (p0 p1 p2 : Param)
  /-- Opcode 8, EQ p0, p1, p2 (R161). -/
  | eq (p0 p1 p2 : Param)
  /-- Opcode 9, ARB p0 (R180). -/
  | arb (p0 : Param)
  /-- Opcode 99, HALT (R190). -/
  | halt
  deriving DecidableEq, Repr

/-- The opcode an instruction belongs to. -/
def Instr.opcode : Instr → Opcode
  | .add _ _ _ => .add
  | .mul _ _ _ => .mul
  | .inp _ => .inp
  | .out _ => .out
  | .jnz _ _ => .jnz
  | .jz _ _ => .jz
  | .lt _ _ _ => .lt
  | .eq _ _ _ => .eq
  | .arb _ => .arb
  | .halt => .halt

/-- The parameters of an instruction, in index order. -/
def Instr.params : Instr → List Param
  | .add p0 p1 p2 => [p0, p1, p2]
  | .mul p0 p1 p2 => [p0, p1, p2]
  | .inp p0 => [p0]
  | .out p0 => [p0]
  | .jnz p0 p1 => [p0, p1]
  | .jz p0 p1 => [p0, p1]
  | .lt p0 p1 p2 => [p0, p1, p2]
  | .eq p0 p1 p2 => [p0, p1, p2]
  | .arb p0 => [p0]
  | .halt => []

/-- The six fault kinds of R240. -/
inductive FaultKind where
  /-- Code 1: a negative address used by a fetch or a parameter (R241). -/
  | invalidAddress
  /-- Code 2: the opcode word is negative or not in the table (R242). -/
  | invalidOpcode
  /-- Code 3: a mode digit 3 to 9, or an Immediate Write-role parameter (R244). -/
  | invalidParameterMode
  /-- Code 4: a step was asked for while HALTED is true (R243). -/
  | alreadyHalted
  /-- Code 5: an exact result that must be stored is no Word (R247). -/
  | overflow
  /-- Code 6: a write at an address at or above CAP (R248). -/
  | capacityExceeded
  deriving DecidableEq, Repr

end Sys2Proof
end

