-- ==== Sys2Proof/Machine/State.lean ====
section
/-! DEFINITION. The architectural state of one instance (10_state.md R20) as plain data, its power-on value
(R33, R270), and the reasons the host's interface asks for. -/

namespace Sys2Proof.Machine

/-- One written word of memory: its address and its value. The spec's unit of address is the Word and it
gives a Word no bytes (R40, R41), so a cell holds a Word where `Host.Cell` holds a byte
(notes/assumptions/3.md). -/
abbrev Cell := Nat × Word

/-- MEM (R27) as data: the cells that do not hold 0, addresses strictly rising. An address that is not
listed reads 0. -/
abbrev Memory := List Cell

/-- The canonical form of memory: no cell holds 0, and the addresses rise strictly. -/
def Memory.wf : Memory → Bool
  | [] => true
  | (a, v) :: m => v != 0 && m.all (a < ·.1) && Memory.wf m

/-- The fault record's pair (R26): the kind, and the IP at the start of the faulting step. -/
structure FaultRecord where
  /-- One of the six kinds of R240. -/
  kind : FaultKind
  /-- The Word IP held when the faulting step began. -/
  ip : Word
  deriving DecidableEq, Repr

/-- The architectural state of R20, and the instance's parameters. -/
structure State where
  /-- The implementation parameters (R4): the model's own field, which nothing changes
  (notes/assumptions/1.md). -/
  cfg : Config
  /-- MEM (R27). -/
  mem : Memory
  /-- EXTENT (R27): the length of the backing storage of MEM. -/
  extent : Nat
  /-- PROGRAM (R28): the program as loaded, kept for RESET. -/
  program : List Word
  /-- IP (R22): the instruction pointer. -/
  ip : Word
  /-- RB (R23): the relative base. -/
  rb : Word
  /-- HALTED (R24): the halted flag. -/
  halted : Bool
  /-- FR (R26): the fault record. -/
  fr : Option FaultRecord
  /-- INQ (R29): the input queue, oldest first. -/
  inq : List Word
  /-- OUTQ (R29): the output queue, oldest first. -/
  outq : List Word
  deriving DecidableEq, Repr

/-- A stop that is no next state. Nothing raises one, and it has no constructor: the spec describes the
entry of each of its faults (R245, R246: FR is written, nothing else changes), so every fault of the spec is
a next state of the model, and every step answers one (safe, notes/assumptions/4.md). -/
inductive Fault where
  deriving DecidableEq, Repr

/-- A refusal of an instruction. -/
inductive Refusal where
  /-- Raised by an arm of `exec` whose instruction has no meaning yet; every instruction of this model has
  one, so nothing raises it (safe). -/
  | notModelled (mnemonic : String)
  deriving DecidableEq, Repr

/-- The outcome of a step as the host's interface reads it. -/
abbrev Outcome := Host.Outcome State Fault Refusal

/-- Power-on (R33, R270): the empty program is loaded, memory is all 0, and the queues are empty. RESET at
power-on leaves this same state (R271). -/
def State.reset : State :=
  { cfg := Config.default
    mem := []
    extent := 0
    program := []
    ip := 0
    rb := 0
    halted := false
    fr := none
    inq := []
    outq := [] }

end Sys2Proof.Machine
end

