-- ==== Sys2Proof/Machine/Ops.lean ====
section
/-! DEFINITION. The named operations over memory, the queues and the fault record, RESET, and the outcome of
an action with its commit (20_memory.md, 10_state.md R29, 30_encoding.md R73 to R77, 60_exceptions.md R246,
70_reset_and_hazards.md R271). -/

namespace Sys2Proof.Machine

/-! ### Memory -/

/-- The Word a memory holds at an address: the first cell listed for it, or 0. -/
def Memory.read : Memory → Nat → Word
  | [], _ => 0
  | (b, w) :: m, a => if b = a then w else Memory.read m a

/-- The memory with nothing listed at an address. -/
def Memory.erase : Memory → Nat → Memory
  | [], _ => []
  | (b, w) :: m, a => if b = a then Memory.erase m a else (b, w) :: Memory.erase m a

/-- List a cell in its place, before the first cell of a higher address. -/
def Memory.insert : Memory → Nat → Word → Memory
  | [], a, v => [(a, v)]
  | (b, w) :: m, a, v => if a < b then (a, v) :: (b, w) :: m else (b, w) :: Memory.insert m a v

/-- `MEM[a] <- v`, keeping the canonical form: a cell that becomes 0 is taken off the list. -/
def Memory.write (m : Memory) (a : Nat) (v : Word) : Memory :=
  if v = 0 then m.erase a else (m.erase a).insert a v

/-- The memory that holds a list of Words from an address on, and 0 elsewhere (R271). -/
def Memory.ofWords : Nat → List Word → Memory
  | _, [] => []
  | a, v :: vs => if v = 0 then Memory.ofWords (a + 1) vs else (a, v) :: Memory.ofWords (a + 1) vs

/-- `MemRead(a)` (R44): the Word at address `a`, with no side effect. Its pseudocode's test against EXTENT
changes nothing, by the invariant of R27 (`State.Inv`; notes/assumptions/12.md). -/
def memRead (s : State) (a : Nat) : Word := s.mem.read a

/-- `MemWrite(a, v)` (R45): store the Word and grow EXTENT to take the address in. -/
def memWrite (s : State) (a : Nat) (v : Word) : State :=
  { s with mem := s.mem.write a v, extent := if s.extent ≤ a then a + 1 else s.extent }

/-- `CheckWriteAddr(a)` (R45): InvalidAddress below 0, CapacityExceeded at or above CAP. -/
def checkWriteAddr (c : Config) (a : Int) : Except FaultKind Nat :=
  if a < 0 then .error .invalidAddress
  else if c.atCap a then .error .capacityExceeded
  else .ok a.toNat

/-- `n` consecutive Words from an address on. -/
def readWords (s : State) : Nat → Nat → List Word
  | _, 0 => []
  | a, n + 1 => memRead s a :: readWords s (a + 1) n

/-! ### The outcome of an action -/

/-- The two holds of R74. -/
inductive Hold where
  /-- IN with INQ empty (R120). -/
  | awaitInput
  /-- OUT with OUTQ full (R121). -/
  | awaitOutputSpace
  deriving DecidableEq, Repr

/-- The effects of an action (R73): "at most one memory write, at most one queue push or pop, and at most one
RB update". -/
structure Effects where
  /-- A memory write: address and Word. -/
  store : Option (Nat × Word) := none
  /-- Whether the head of INQ is popped. -/
  popsInput : Bool := false
  /-- A Word pushed onto OUTQ. -/
  push : Option Word := none
  /-- The new RB. -/
  newRb : Option Word := none
  deriving DecidableEq, Repr

/-- What an action computes from its resolved arguments (R73). -/
inductive ActOutcome where
  /-- Apply the effects, then advance IP by the stride. -/
  | advance (e : Effects)
  /-- Apply the effects, then set IP to the target. -/
  | jumpTo (t : Word) (e : Effects)
  /-- Set HALTED; IP stays. -/
  | halt
  /-- Nothing changes; the step returns the hold's status (notes/assumptions/6.md). -/
  | hold (h : Hold)
  /-- A fault is raised. -/
  | raise (k : FaultKind)
  deriving DecidableEq, Repr

/-- The response of a step (R77). -/
inductive StepResult where
  /-- CONTINUE: an instruction other than HALT committed. -/
  | continued
  /-- HALTED: HALT committed. -/
  | halted
  /-- AWAIT_INPUT: a hold of IN. -/
  | awaitInput
  /-- AWAIT_OUTPUT_SPACE: a hold of OUT. -/
  | awaitOutputSpace
  /-- FAULT(kind, ip): raised by this step, or recorded before it. -/
  | fault (kind : FaultKind) (ip : Word)
  deriving DecidableEq, Repr

/-- The status a hold returns (R74). -/
def Hold.result : Hold → StepResult
  | .awaitInput => .awaitInput
  | .awaitOutputSpace => .awaitOutputSpace

/-- Store an optional memory write. -/
def applyStore (s : State) : Option (Nat × Word) → State
  | none => s
  | some (a, v) => memWrite s a v

/-- Apply the effects of an action (R73). -/
def applyEffects (e : Effects) (s : State) : State :=
  let t := applyStore s e.store
  { t with
    inq := if e.popsInput then t.inq.tail else t.inq
    outq := t.outq ++ e.push.toList
    rb := e.newRb.getD t.rb }

/-! ### Taking a fault, and the way out of one -/

/-- Fault entry (R246), the one way the model takes an exception: FR records the kind and the IP the step
began with, and nothing else changes (R245). -/
def takeFault (k : FaultKind) (s : State) : State := { s with fr := some { kind := k, ip := s.ip } }

/-- Fault entry with the response of the step (R246). -/
def faulted (k : FaultKind) (s : State) : State × StepResult := (takeFault k s, .fault k s.ip)

/-- RESET (R271), the only way out of a fault or of HALT besides LOAD (R252): memory becomes exactly the
program, everything else is zeroed, and PROGRAM, INQ and OUTQ stay. -/
def resetState (s : State) : State :=
  { s with
    mem := Memory.ofWords 0 s.program
    extent := s.program.length
    ip := 0
    rb := 0
    halted := false
    fr := none }

/-! ### Commit -/

/-- Commit (R75): the next state and the response of a step whose action gave an outcome. An advance past
WMAX raises Overflow, and then no effect is applied (R76). -/
def commit (stride : Nat) (o : ActOutcome) (s : State) : State × StepResult :=
  match o with
  | .advance e =>
    if s.cfg.aboveMax (s.ip + stride) then faulted .overflow s
    else ({ applyEffects e s with ip := s.ip + stride }, .continued)
  | .jumpTo t e => ({ applyEffects e s with ip := t }, .continued)
  | .halt => ({ s with halted := true }, .halted)
  | .hold h => (s, h.result)
  | .raise k => faulted k s

/-- The state a commit leaves, as the outcome the host's interface asks for: always a next state. -/
def conclude (stride : Nat) (o : ActOutcome) (s : State) : Outcome := .next (commit stride o s).1

end Sys2Proof.Machine
end

