-- ==== Sys2Proof/Machine/Operands.lean ====
section
/-! DEFINITION. Parameter resolution (30_encoding.md R66 to R69), and the store every writing action ends
with. -/

namespace Sys2Proof.Machine

/-- The effective address of a Position or Relative parameter, in exact integers (R66, R67). An Immediate
parameter has none; this gives its raw operand, which nothing uses. -/
def effectiveAddress (p : Param) (s : State) : Int :=
  match p.mode with
  | .position => p.raw
  | .immediate => p.raw
  | .relative => s.rb + p.raw

/-- The data read of a Read-role parameter at its effective address (R67): InvalidAddress below 0. -/
def loadWord (s : State) (ea : Int) : Except FaultKind Word :=
  if ea < 0 then .error .invalidAddress else .ok (memRead s ea.toNat)

/-- Resolve a Read-role parameter to its value (R67, R68). -/
def readParam (p : Param) (s : State) : Except FaultKind Word :=
  match p.mode with
  | .immediate => .ok p.raw
  | .position => loadWord s (effectiveAddress p s)
  | .relative => loadWord s (effectiveAddress p s)

/-- Resolve a Write-role parameter to its address (R67), which is checked only when the action writes;
Immediate raises InvalidParameterMode (R68). -/
def writeParam (p : Param) (s : State) : Except FaultKind Int :=
  match p.mode with
  | .immediate => .error .invalidParameterMode
  | .position => .ok (effectiveAddress p s)
  | .relative => .ok (effectiveAddress p s)

/-- Go on with a resolved value, or end the step with the fault (R69: the first failure ends it). -/
def withArg {α : Type} (r : Except FaultKind α) (act : α → ActOutcome) : ActOutcome :=
  match r with
  | .error k => .raise k
  | .ok a => act a

/-- Resolve Read, Read, Write in index order and run the action (format F3RRW; R69). -/
def withReadReadWrite (p0 p1 p2 : Param) (s : State) (act : Word → Word → Int → ActOutcome) : ActOutcome :=
  withArg (readParam p0 s) fun a =>
    withArg (readParam p1 s) fun b =>
      withArg (writeParam p2 s) fun d => act a b d

/-- Resolve Read, Read in index order and run the action (format F2RR; R69). -/
def withReadRead (p0 p1 : Param) (s : State) (act : Word → Word → ActOutcome) : ActOutcome :=
  withArg (readParam p0 s) fun a => withArg (readParam p1 s) fun b => act a b

/-- Check a write address and store a Word there at commit, with the other effects of the action (R45). -/
def storeAt (s : State) (d : Int) (v : Word) (e : Effects) : ActOutcome :=
  withArg (checkWriteAddr s.cfg d) fun a => .advance { e with store := some (a, v) }

end Sys2Proof.Machine
end

