-- ==== Sys2Proof/Machine/Arithmetic.lean ====
section
/-! DEFINITION. ADD and MUL (40_arithmetic.md R100 to R102). -/

namespace Sys2Proof.Machine

/-- Store an exact result that must be a Word (R102): Overflow if it is not, checked before the write
address (R249). -/
def storeExact (s : State) (v : Int) (d : Int) : ActOutcome :=
  if s.cfg.inWord v then storeAt s d v {} else .raise .overflow

/-- The action of ADD (R100): the exact sum. -/
def actAdd (s : State) (a b : Word) (d : Int) : ActOutcome := storeExact s (a + b) d

/-- The action of MUL (R101): the exact product. -/
def actMul (s : State) (a b : Word) (d : Int) : ActOutcome := storeExact s (a * b) d

/-- ADD up to its outcome: resolution, then the action. -/
def outcomeAdd (p0 p1 p2 : Param) (s : State) : ActOutcome := withReadReadWrite p0 p1 p2 s (actAdd s)

/-- MUL up to its outcome. -/
def outcomeMul (p0 p1 p2 : Param) (s : State) : ActOutcome := withReadReadWrite p0 p1 p2 s (actMul s)

/-- ADD (R100). -/
def execAdd (p0 p1 p2 : Param) (s : State) : Outcome := conclude 4 (outcomeAdd p0 p1 p2 s) s

/-- MUL (R101). -/
def execMul (p0 p1 p2 : Param) (s : State) : Outcome := conclude 4 (outcomeMul p0 p1 p2 s) s

end Sys2Proof.Machine
end

