-- ==== Sys2Proof/Machine/Compare.lean ====
section
/-! DEFINITION. LT and EQ (43_compare.md R160, R161). -/

namespace Sys2Proof.Machine

/-- The Word a comparison stores: 1 or 0. -/
def truthWord (b : Bool) : Word := if b then 1 else 0

/-- The action of LT (R160): 1 if the first value is less, as signed integers, else 0. -/
def actLt (s : State) (a b : Word) (d : Int) : ActOutcome := storeAt s d (truthWord (decide (a < b))) {}

/-- The action of EQ (R161): 1 if the values are equal, else 0. -/
def actEq (s : State) (a b : Word) (d : Int) : ActOutcome := storeAt s d (truthWord (decide (a = b))) {}

/-- LT up to its outcome. -/
def outcomeLt (p0 p1 p2 : Param) (s : State) : ActOutcome := withReadReadWrite p0 p1 p2 s (actLt s)

/-- EQ up to its outcome. -/
def outcomeEq (p0 p1 p2 : Param) (s : State) : ActOutcome := withReadReadWrite p0 p1 p2 s (actEq s)

/-- LT (R160). -/
def execLt (p0 p1 p2 : Param) (s : State) : Outcome := conclude 4 (outcomeLt p0 p1 p2 s) s

/-- EQ (R161). -/
def execEq (p0 p1 p2 : Param) (s : State) : Outcome := conclude 4 (outcomeEq p0 p1 p2 s) s

end Sys2Proof.Machine
end

