-- ==== Sys2Proof/Machine/Control.lean ====
section
/-! DEFINITION. JNZ and JZ (42_control.md R140 to R142). -/

namespace Sys2Proof.Machine

/-- A conditional jump (R142): taken, IP becomes the target exactly, whatever the target; else the advance. -/
def jumpIf (taken : Bool) (t : Word) : ActOutcome := if taken then .jumpTo t {} else .advance {}

/-- The action of JNZ (R140): taken when the condition is not 0. -/
def actJnz (c t : Word) : ActOutcome := jumpIf (c != 0) t

/-- The action of JZ (R141): taken when the condition is 0. -/
def actJz (c t : Word) : ActOutcome := jumpIf (c == 0) t

/-- JNZ up to its outcome. -/
def outcomeJnz (p0 p1 : Param) (s : State) : ActOutcome := withReadRead p0 p1 s actJnz

/-- JZ up to its outcome. -/
def outcomeJz (p0 p1 : Param) (s : State) : ActOutcome := withReadRead p0 p1 s actJz

/-- JNZ (R140). -/
def execJnz (p0 p1 : Param) (s : State) : Outcome := conclude 3 (outcomeJnz p0 p1 s) s

/-- JZ (R141). -/
def execJz (p0 p1 : Param) (s : State) : Outcome := conclude 3 (outcomeJz p0 p1 s) s

end Sys2Proof.Machine
end

