-- ==== Sys2Proof/Machine/Halt.lean ====
section
/-! DEFINITION. HALT (45_halt.md R190). -/

namespace Sys2Proof.Machine

/-- HALT up to its outcome: it has no parameters. -/
def outcomeHalt : ActOutcome := .halt

/-- HALT (R190): HALTED becomes true and IP keeps the address of the halt word. -/
def execHalt (s : State) : Outcome := conclude 1 outcomeHalt s

end Sys2Proof.Machine
end

