-- ==== Sys2Proof/Machine/Io.lean ====
section
/-! DEFINITION. IN and OUT (41_io.md R120, R121). -/

namespace Sys2Proof.Machine

/-- The action of IN (R120): hold while INQ is empty, which comes before the address check; else pop the
oldest entry into the write address. -/
def actIn (s : State) (d : Int) : ActOutcome :=
  match s.inq with
  | [] => .hold .awaitInput
  | v :: _ => storeAt s d v { popsInput := true }

/-- OUTQ is full (R121): OUT_CAP is finite and OUTQ has that many entries. -/
def outputFull (s : State) : Bool := s.cfg.outCap == some s.outq.length

/-- The action of OUT (R121): hold while OUTQ is full; else push the value. -/
def actOut (s : State) (v : Word) : ActOutcome :=
  if outputFull s then .hold .awaitOutputSpace else .advance { push := some v }

/-- IN up to its outcome. -/
def outcomeIn (p0 : Param) (s : State) : ActOutcome := withArg (writeParam p0 s) (actIn s)

/-- OUT up to its outcome. -/
def outcomeOut (p0 : Param) (s : State) : ActOutcome := withArg (readParam p0 s) (actOut s)

/-- IN (R120). -/
def execIn (p0 : Param) (s : State) : Outcome := conclude 2 (outcomeIn p0 s) s

/-- OUT (R121). -/
def execOut (p0 : Param) (s : State) : Outcome := conclude 2 (outcomeOut p0 s) s

end Sys2Proof.Machine
end

