-- ==== Sys2Proof/Machine/RelativeBase.lean ====
section
/-! DEFINITION. ARB (44_relative_base.md R180). -/

namespace Sys2Proof.Machine

/-- The action of ARB (R180): the exact sum of RB and the value, Overflow if it is no Word. -/
def actArb (s : State) (v : Word) : ActOutcome :=
  if s.cfg.inWord (s.rb + v) then .advance { newRb := some (s.rb + v) } else .raise .overflow

/-- ARB up to its outcome; its operand is resolved with the old RB. -/
def outcomeArb (p0 : Param) (s : State) : ActOutcome := withArg (readParam p0 s) (actArb s)

/-- ARB (R180). -/
def execArb (p0 : Param) (s : State) : Outcome := conclude 2 (outcomeArb p0 s) s

end Sys2Proof.Machine
end

