-- ==== Sys2Proof/Decode.lean ====
section
/-! DEFINITION. The decimal instruction format (30_encoding.md R60 to R72, R79): the descriptor table, the
decoder, the encoder, and the pseudo-instructions of the spec's notation (R91). -/

namespace Sys2Proof

/-- The opcode identifier of each row (R70). -/
def Opcode.number : Opcode → Nat
  | .add => 1
  | .mul => 2
  | .inp => 3
  | .out => 4
  | .jnz => 5
  | .jz => 6
  | .lt => 7
  | .eq => 8
  | .arb => 9
  | .halt => 99

/-- The row an opcode identifier selects; `none` for 0 and 10 to 98, which are not in the table (R64). -/
def opcodeOfNat : Nat → Option Opcode
  | 1 => some .add
  | 2 => some .mul
  | 3 => some .inp
  | 4 => some .out
  | 5 => some .jnz
  | 6 => some .jz
  | 7 => some .lt
  | 8 => some .eq
  | 9 => some .arb
  | 99 => some .halt
  | _ => none

/-- The parameter roles of each row, in index order (R70). -/
def Opcode.roles : Opcode → List Role
  | .add => [.read, .read, .write]
  | .mul => [.read, .read, .write]
  | .inp => [.write]
  | .out => [.read]
  | .jnz => [.read, .read]
  | .jz => [.read, .read]
  | .lt => [.read, .read, .write]
  | .eq => [.read, .read, .write]
  | .arb => [.read]
  | .halt => []

/-- The stride of each row (R70): the number of words consumed, the opcode word included. -/
def Opcode.stride : Opcode → Nat
  | .add => 4
  | .mul => 4
  | .inp => 2
  | .out => 2
  | .jnz => 3
  | .jz => 3
  | .lt => 4
  | .eq => 4
  | .arb => 2
  | .halt => 1

/-- `digit_k(n)` of R7: the k-th decimal digit, the least significant first, 0 beyond the last. -/
def digit (k n : Nat) : Nat := n / 10 ^ k % 10

/-- The decimal digits of `n`, least significant first, at most `fuel` of them. -/
def digitsUpTo : Nat → Nat → List Nat
  | 0, _ => []
  | fuel + 1, n => if n = 0 then [] else n % 10 :: digitsUpTo fuel (n / 10)

/-- All decimal digits of `n`, least significant first; `ndigits(n)` of R7 is its length, 0 for 0. A number
has no more decimal digits than binary ones. -/
def decimalDigits (n : Nat) : List Nat := digitsUpTo (n.log2 + 1) n

/-- The mode a digit selects (R65): 1 Immediate, 2 Relative, 0 Position. Digits 3 to 9 never come here:
`decodeWord` has refused them. -/
def modeOfDigit : Nat → Mode
  | 1 => .immediate
  | 2 => .relative
  | _ => .position

/-- The mode digit of each mode (R65). -/
def Mode.digit : Mode → Nat
  | .position => 0
  | .immediate => 1
  | .relative => 2

/-- Decode an opcode word to its opcode and its mode number `M` (R63 to R65), in the order of R78: a
negative word, then an opcode not in the table, then any digit 3 to 9 anywhere in `M`. -/
def decodeWord (w : Word) : Except FaultKind (Opcode × Nat) :=
  if w < 0 then .error .invalidOpcode
  else
    match opcodeOfNat (w.toNat % 100) with
    | none => .error .invalidOpcode
    | some op =>
      if (decimalDigits (w.toNat / 100)).all (· ≤ 2) then .ok (op, w.toNat / 100)
      else .error .invalidParameterMode

/-- Parameter `i`: its mode from digit `i` of the mode number and its raw operand from the words after the
opcode word (R60). Words that are not there read 0, as memory beyond EXTENT does (R66). -/
def paramAt (M : Nat) (raws : List Word) (i : Nat) : Param :=
  { mode := modeOfDigit (digit i M), raw := raws.getD i 0 }

/-- Put an instruction together from its opcode, its mode number and its raw operand words (R60). -/
def assemble (op : Opcode) (M : Nat) (raws : List Word) : Instr :=
  match op with
  | .add => .add (paramAt M raws 0) (paramAt M raws 1) (paramAt M raws 2)
  | .mul => .mul (paramAt M raws 0) (paramAt M raws 1) (paramAt M raws 2)
  | .inp => .inp (paramAt M raws 0)
  | .out => .out (paramAt M raws 0)
  | .jnz => .jnz (paramAt M raws 0) (paramAt M raws 1)
  | .jz => .jz (paramAt M raws 0) (paramAt M raws 1)
  | .lt => .lt (paramAt M raws 0) (paramAt M raws 1) (paramAt M raws 2)
  | .eq => .eq (paramAt M raws 0) (paramAt M raws 1) (paramAt M raws 2)
  | .arb => .arb (paramAt M raws 0)
  | .halt => .halt

/-- Decode a list of words, the opcode word first: the instruction and the words after it, or the fault kind
that refuses the word by name. Words beyond the list's end count as 0, so the empty list is the word 0. -/
def decode (ws : List Word) : Except FaultKind (Instr × List Word) :=
  match decodeWord (ws.headD 0) with
  | .error k => .error k
  | .ok (op, M) => .ok (assemble op M ws.tail, ws.drop op.stride)

/-- The number of words of the instruction a word begins, read off the opcode word alone (R72): 1 for a
word whose opcode is not in the table. -/
def wordLength (w : Word) : Nat :=
  if w < 0 then 1
  else
    match opcodeOfNat (w.toNat % 100) with
    | none => 1
    | some op => op.stride

/-- The mode number of a list of parameters: the mode digit of parameter i at 10^i (R60). -/
def modeNumber : List Param → Nat
  | [] => 0
  | p :: ps => p.mode.digit + 10 * modeNumber ps

/-- The canonical opcode word of an instruction (R60, R79): every ignored digit 0. -/
def Instr.headWord (i : Instr) : Word := (i.opcode.number + 100 * modeNumber i.params : Nat)

/-- The words of an instruction (R60): its canonical opcode word, then its raw operands in index order. -/
def encode (i : Instr) : List Word := i.headWord :: i.params.map (·.raw)

/-! ### Instructions given as one number -/

/-- The least significant 64 bits of `n` as a two's-complement word. -/
def signed64 (n : Nat) : Word :=
  if n % 2 ^ 64 < 2 ^ 63 then (n % 2 ^ 64 : Nat) else (n % 2 ^ 64 : Nat) - (2 ^ 64 : Nat)

/-- The words laid out in the bits of `w`: four words of 64 bits (the longest instruction at the default
width), the first in the least significant bits, bits at or above `nbits` zero. The spec gives no bit layout
(R41), so this one is the model's (DESIGN CHOICE, notes/assumptions/9.md). -/
def tableWords (nbits w : Nat) : List Word :=
  let b := w % 2 ^ nbits
  [signed64 b, signed64 (b / 2 ^ 64), signed64 (b / 2 ^ 128), signed64 (b / 2 ^ 192)]

/-- The instruction the decoder reads from the words laid out in the bits of `w`. -/
def decodeTableWord (nbits w : Nat) : Option Instr :=
  match decode (tableWords nbits w) with
  | .ok (i, _) => some i
  | .error _ => none

/-! ### The spec's notation (R90, R91): conveniences, no instructions of their own -/

/-- `JMP t` is `JNZ #1, t` (R91). -/
def pseudoJmp (t : Param) : Instr := .jnz ⟨.immediate, 1⟩ t

/-- `MOV s, d` is `ADD s, #0, d` (R91). -/
def pseudoMov (s d : Param) : Instr := .add s ⟨.immediate, 0⟩ d

/-- `NOP` is `JZ #1, #0` (R80, R91): an untaken jump of three words. -/
def pseudoNop : Instr := .jz ⟨.immediate, 1⟩ ⟨.immediate, 0⟩

end Sys2Proof
end

