-- ==== Sys2Proof/Machine/Fetch.lean ====
section
/-! DEFINITION. Fetching an instruction (30_encoding.md R62, R66), and placing one where it is fetched. -/

namespace Sys2Proof.Machine

/-- The words of the instruction at IP: the opcode word, and as many more as it says (R42, R72). Their order
against the data reads is not observable, since a read has no side effect (R44, R276;
notes/assumptions/13.md). -/
def instrWords (s : State) : List Word :=
  readWords s s.ip.toNat (wordLength (memRead s s.ip.toNat))

/-- Fetch and decode (R62 to R65): InvalidAddress at a negative IP, else what the decoder says. -/
def fetchInstr (s : State) : Except FaultKind Instr :=
  if s.ip < 0 then .error .invalidAddress
  else
    match decode (instrWords s) with
    | .error k => .error k
    | .ok (i, _) => .ok i

/-- Store words from an address on. -/
def placeWords (s : State) : Nat → List Word → State
  | _, [] => s
  | a, v :: vs => placeWords (memWrite s a v) (a + 1) vs

/-- A state whose next step fetches at IP: no fault recorded, not halted, IP not negative (R61, R62). -/
def readyToFetch (s : State) : State :=
  { s with fr := none, halted := false, ip := if s.ip < 0 then 0 else s.ip }

end Sys2Proof.Machine
end

