-- ==== Sys2Proof/Machine/Step.lean ====
section
/-! DEFINITION. One step of the core, the STEP command's effect on the state (30_encoding.md R78), and the
placing of an instruction for the next step. -/

namespace Sys2Proof.Machine

/-- `Step()` of R78: a recorded fault is reported again and changes nothing, a halted instance raises
AlreadyHalted (R61), a fetch or a decode that fails raises its fault, and otherwise the decoded instruction
runs. The response of the step is `stepResponse` (Machine/Response.lean). -/
def step (s : State) : Host.Outcome State Fault Refusal :=
  match s.fr with
  | some _ => .next s
  | none =>
    if s.halted then .next (takeFault .alreadyHalted s)
    else
      match fetchInstr s with
      | .error k => .next (takeFault k s)
      | .ok i => exec i s

/-- The state with the words laid out in the bits of `w` (`tableWords`) stored where the next step fetches;
it stands for the LOAD that brings a program in (notes/assumptions/10.md). -/
def State.withFetchWord (s : State) (nbits w : Nat) : State :=
  placeWords (readyToFetch s) (readyToFetch s).ip.toNat (tableWords nbits w)

end Sys2Proof.Machine
end

