-- ==== Sys2Proof/Machine/Flags.lean ====
section
/-! DEFINITION. The one flag, the run states and the host-readable registers (10_state.md R24, R30, R31).
The block has no condition codes (R25), so no instruction computes a flag. -/

namespace Sys2Proof.Machine

/-- The code of a fault kind (R240). -/
def faultCode : FaultKind → Nat
  | .invalidAddress => 1
  | .invalidOpcode => 2
  | .invalidParameterMode => 3
  | .alreadyHalted => 4
  | .overflow => 5
  | .capacityExceeded => 6

/-- FKIND of R30: the code of the recorded fault, or 0. -/
def faultField (s : State) : Nat :=
  match s.fr with
  | none => 0
  | some r => faultCode r.kind

/-- Host register 2, STATUS (R30): HALTED in bit 0, FKIND in bits 3:1, all higher bits 0. -/
def statusRegister (s : State) : Word := ((if s.halted then 1 else 0) + 2 * faultField s : Nat)

/-- Host register 3, FIP (R30). -/
def faultIpRegister (s : State) : Word :=
  match s.fr with
  | none => 0
  | some r => r.ip

/-- The host registers of R30 by number; `none` from 7 on, which are no registers. -/
def hostRegister (s : State) : Nat → Option Word
  | 0 => some s.ip
  | 1 => some s.rb
  | 2 => some (statusRegister s)
  | 3 => some (faultIpRegister s)
  | 4 => some s.inq.length
  | 5 => some s.outq.length
  | 6 => some s.extent
  | _ => none

/-- The run states of R31. -/
inductive RunState where
  /-- HALTED is false and FR is none. -/
  | ready
  /-- HALTED is true and FR is none. -/
  | halted
  /-- FR is not none. -/
  | faulted
  deriving DecidableEq, Repr

/-- The run state, derived from the stored state (R31). -/
def runState (s : State) : RunState :=
  if s.fr.isSome then .faulted else if s.halted then .halted else .ready

end Sys2Proof.Machine
end

