-- ==== Sys2Proof/Machine/Response.lean ====
section
/-! DEFINITION. The response of a step (30_encoding.md R77, 50_host_interface.md R203). It is no state (R20; notes/assumptions/5.md):
it is computed from the state the step starts in, by the outcome the meanings themselves conclude. -/

namespace Sys2Proof.Machine

/-- The outcome of an instruction, by constructor: what its meaning commits. -/
def outcomeOf (i : Instr) (s : State) : ActOutcome :=
  match i with
  | .add p0 p1 p2 => outcomeAdd p0 p1 p2 s
  | .mul p0 p1 p2 => outcomeMul p0 p1 p2 s
  | .inp p0 => outcomeIn p0 s
  | .out p0 => outcomeOut p0 s
  | .jnz p0 p1 => outcomeJnz p0 p1 s
  | .jz p0 p1 => outcomeJz p0 p1 s
  | .lt p0 p1 p2 => outcomeLt p0 p1 p2 s
  | .eq p0 p1 p2 => outcomeEq p0 p1 p2 s
  | .arb p0 => outcomeArb p0 s
  | .halt => outcomeHalt

/-- `Step()` of R78 with its response: the state it leaves and what it returns. -/
def stepResponse (s : State) : State × StepResult :=
  match s.fr with
  | some r => (s, .fault r.kind r.ip)
  | none =>
    if s.halted then faulted .alreadyHalted s
    else
      match fetchInstr s with
      | .error k => faulted k s
      | .ok i => commit i.opcode.stride (outcomeOf i s) s

end Sys2Proof.Machine
end

