-- ==== Sys2Proof/Machine/Text.lean ====
section
/-! DEFINITION. The program text of LOAD (50_host_interface.md R201): its grammar as a relation, and the
parser LOAD uses. -/

namespace Sys2Proof.Machine

/-- The whitespace of R201: space, tab, carriage return, line feed. -/
def isSpace (c : Char) : Bool := c == ' ' || c == '\t' || c == '\r' || c == '\n'

/-- The value of a digit character "0" to "9". -/
def digitValue (c : Char) : Option Nat :=
  if 48 ≤ c.toNat ∧ c.toNat ≤ 57 then some (c.toNat - 48) else none

/-! ### The grammar -/

/-- `digit+` with its base-10 value (R201); leading zeros are allowed. -/
inductive DigitsText : List Char → Nat → Prop where
  | one {c : Char} {d : Nat} (h : digitValue c = some d) : DigitsText [c] d
  | more {cs : List Char} {n : Nat} {c : Char} {d : Nat} (hs : DigitsText cs n) (h : digitValue c = some d) :
      DigitsText (cs ++ [c]) (10 * n + d)

/-- `int := "-"? digit+` with its value (R201); "-0" is 0. -/
inductive IntText : List Char → Int → Prop where
  | plain {cs : List Char} {n : Nat} (h : DigitsText cs n) : IntText cs n
  | minus {cs : List Char} {n : Nat} (h : DigitsText cs n) : IntText ('-' :: cs) (-n)

/-- `ws int ws` (R201). -/
inductive FieldText : List Char → Int → Prop where
  | intro {before body after : List Char} {v : Int} (hb : before.all isSpace = true) (h : IntText body v)
      (ha : after.all isSpace = true) : FieldText (before ++ body ++ after) v

/-- `text := ws int ws ( "," ws int ws )*` with the sequence it stands for (R201). -/
inductive ProgramText : List Char → List Int → Prop where
  | last {cs : List Char} {v : Int} (h : FieldText cs v) : ProgramText cs [v]
  | cons {cs rest : List Char} {v : Int} {vs : List Int} (h : FieldText cs v) (hs : ProgramText rest vs) :
      ProgramText (cs ++ ',' :: rest) (v :: vs)

/-! ### The parser -/

/-- The text between the commas. -/
def splitFields : List Char → List (List Char)
  | [] => [[]]
  | c :: cs =>
    if c = ',' then [] :: splitFields cs
    else
      match splitFields cs with
      | [] => [[c]]
      | f :: fs => (c :: f) :: fs

/-- A field without the whitespace around it. -/
def trimSpace (cs : List Char) : List Char :=
  ((cs.dropWhile isSpace).reverse.dropWhile isSpace).reverse

/-- The value of the digits read so far followed by the digits of `cs`. -/
def digitsFrom : Nat → List Char → Option Nat
  | n, [] => some n
  | n, c :: cs =>
    match digitValue c with
    | none => none
    | some d => digitsFrom (10 * n + d) cs

/-- `digit+`. -/
def parseDigits : List Char → Option Nat
  | [] => none
  | c :: cs => digitsFrom 0 (c :: cs)

/-- `"-"? digit+`. -/
def parseInt : List Char → Option Int
  | [] => none
  | c :: cs =>
    if c = '-' then (parseDigits cs).map fun n : Nat => -(n : Int)
    else (parseDigits (c :: cs)).map fun n : Nat => (n : Int)

/-- Every field an integer. -/
def parseFields : List (List Char) → Option (List Int)
  | [] => some []
  | f :: fs =>
    match parseInt (trimSpace f), parseFields fs with
    | some v, some vs => some (v :: vs)
    | _, _ => none

/-- Parse a program text (R201): every literal a Word, and no more of them than CAP. -/
def parseProgram (c : Config) (text : List Char) : Option (List Word) :=
  match parseFields (splitFields text) with
  | none => none
  | some ws => if ws.all c.inWord && c.fits ws.length then some ws else none

end Sys2Proof.Machine
end

