-- ==== Sys2Proof/Machine/Commands.lean ====
section
/-! DEFINITION. The host's commands (50_host_interface.md R200 to R218): each one atomic transaction on the
state, with its response. -/

namespace Sys2Proof.Machine

/-- The responses of the commands. -/
inductive Response where
  /-- OK. -/
  | ok
  /-- LOAD_ERROR (R200). -/
  | loadError
  /-- The result of a step, or of the step that ended a run (R203 to R205). -/
  | result (r : StepResult)
  /-- COMPLETE(snapshot) (R204). -/
  | complete (words : List Word)
  /-- VALUE(v). -/
  | value (v : Word)
  /-- NO_VALUE (R205). -/
  | noValue
  /-- BUDGET_EXHAUSTED (R206). -/
  | budgetExhausted
  /-- NOT_A_WORD (R210). -/
  | notAWord
  /-- FULL (R210). -/
  | full
  /-- EMPTY (R211, R212). -/
  | empty
  /-- INVALID_ADDRESS (R215). -/
  | invalidAddress
  /-- The sequence of SNAPSHOT (R216). -/
  | words (ws : List Word)
  /-- NoSuchRegister (R217). -/
  | noSuchRegister
  deriving DecidableEq, Repr

/-- The commands of R200 to R217. A budget of `none` is `unbounded` (notes/assumptions/15.md for the
arguments' types). -/
inductive Command where
  /-- LOAD(text) (R200). -/
  | load (text : List Char)
  /-- RESET (R202). -/
  | reset
  /-- STEP (R203). -/
  | step
  /-- RUN_UNTIL_COMPLETE(budget) (R204). -/
  | runUntilComplete (budget : Option Nat)
  /-- RUN_UNTIL_OUTPUT(budget) (R205). -/
  | runUntilOutput (budget : Option Nat)
  /-- IN_PUSH(v) (R210). -/
  | inPush (v : Int)
  /-- IN_POP (R211). -/
  | inPop
  /-- OUT_PUSH(v) (R213). -/
  | outPush (v : Int)
  /-- OUT_POP (R212). -/
  | outPop
  /-- PEEK(a) (R215). -/
  | peek (a : Int)
  /-- SNAPSHOT (R216). -/
  | snapshot
  /-- READ_REG(n) (R217). -/
  | readReg (n : Nat)
  deriving DecidableEq, Repr

/-- LOAD (R200): set PROGRAM and RESET, or change nothing. -/
def loadCommand (text : List Char) (s : State) : State × Response :=
  match parseProgram s.cfg text with
  | none => (s, .loadError)
  | some ws => (resetState { s with program := ws }, .ok)

/-- IN_PUSH (R210). -/
def inPushCommand (v : Int) (s : State) : State × Response :=
  if s.cfg.inWord v then
    if s.cfg.inCap == some s.inq.length then (s, .full) else ({ s with inq := s.inq ++ [v] }, .ok)
  else (s, .notAWord)

/-- OUT_PUSH (R213), under the same checks with OUT_CAP. -/
def outPushCommand (v : Int) (s : State) : State × Response :=
  if s.cfg.inWord v then
    if s.cfg.outCap == some s.outq.length then (s, .full) else ({ s with outq := s.outq ++ [v] }, .ok)
  else (s, .notAWord)

/-- IN_POP (R211). -/
def inPopCommand (s : State) : State × Response :=
  match s.inq with
  | [] => (s, .empty)
  | v :: q => ({ s with inq := q }, .value v)

/-- OUT_POP (R212). -/
def outPopCommand (s : State) : State × Response :=
  match s.outq with
  | [] => (s, .empty)
  | v :: q => ({ s with outq := q }, .value v)

/-- PEEK (R215). -/
def peekCommand (a : Int) (s : State) : Response :=
  if a < 0 then .invalidAddress else .value (memRead s a.toNat)

/-- The snapshot of memory: the EXTENT words from address 0 (R216). -/
def snapshotWords (s : State) : List Word := readWords s 0 s.extent

/-- READ_REG (R217). -/
def readRegCommand (n : Nat) (s : State) : Response :=
  match hostRegister s n with
  | none => .noSuchRegister
  | some v => .value v

/-- RUN_UNTIL_COMPLETE with a finite budget (R204, R206). -/
def runUntilComplete : Nat → State → State × Response
  | 0, s => (s, .budgetExhausted)
  | n + 1, s =>
    match stepResponse s with
    | (t, .continued) => runUntilComplete n t
    | (t, .halted) => (t, .complete (snapshotWords t))
    | (t, .awaitInput) => (t, .result .awaitInput)
    | (t, .awaitOutputSpace) => (t, .result .awaitOutputSpace)
    | (t, .fault k ip) => (t, .result (.fault k ip))

/-- The instruction the next step would run is an OUT (R205: `op = 4`). -/
def nextIsOut (s : State) : Bool :=
  match fetchInstr s with
  | .error _ => false
  | .ok i => i.opcode == .out

/-- RUN_UNTIL_OUTPUT with a finite budget (R205, R206). After a committed OUT the oldest entry of OUTQ is
removed and returned; OUTQ is not empty there, so OUT_POP's EMPTY never answers (notes/assumptions/11.md). -/
def runUntilOutput : Nat → State → State × Response
  | 0, s => (s, .budgetExhausted)
  | n + 1, s =>
    match stepResponse s with
    | (t, .continued) => if nextIsOut s then outPopCommand t else runUntilOutput n t
    | (t, .halted) => (t, .noValue)
    | (t, .awaitInput) => (t, .result .awaitInput)
    | (t, .awaitOutputSpace) => (t, .result .awaitOutputSpace)
    | (t, .fault k ip) => (t, .result (.fault k ip))

/-- An unbounded run as far as `fuel` steps show it: `none` while it has not returned. -/
def unbounded (run : Nat → State → State × Response) (fuel : Nat) (s : State) : Option (State × Response) :=
  if (run fuel s).2 = .budgetExhausted then none else some (run fuel s)

/-- One command: the state it leaves and its response. `fuel` bounds how far an unbounded run is followed;
`none` says that it has not returned by then. Every other command ignores it. -/
def command (fuel : Nat) (c : Command) (s : State) : Option (State × Response) :=
  match c with
  | .load text => some (loadCommand text s)
  | .reset => some (resetState s, .ok)
  | .step => some ((stepResponse s).1, .result (stepResponse s).2)
  | .runUntilComplete (some b) => some (runUntilComplete b s)
  | .runUntilComplete none => unbounded runUntilComplete fuel s
  | .runUntilOutput (some b) => some (runUntilOutput b s)
  | .runUntilOutput none => unbounded runUntilOutput fuel s
  | .inPush v => some (inPushCommand v s)
  | .inPop => some (inPopCommand s)
  | .outPush v => some (outPushCommand v s)
  | .outPop => some (outPopCommand s)
  | .peek a => some (s, peekCommand a s)
  | .snapshot => some (s, .words (snapshotWords s))
  | .readReg n => some (s, readRegCommand n s)

/-- The command, issued in state `s`, returns with the response `r` and leaves the state `t`. An unbounded
run that never ends returns nothing, and is in this relation with no state (R204, U11;
notes/assumptions/8.md). -/
def Returns (c : Command) (s t : State) (r : Response) : Prop := ∃ fuel, command fuel c s = some (t, r)

/-! ### Several instances -/

/-- A command to the instance at position `k` of several (R258): the others are left alone
(notes/assumptions/16.md). `none` where
there is no such instance, or where the command has not returned within `fuel` steps. -/
def commandTo (fuel : Nat) (k : Nat) (c : Command) : List State → Option (List State × Response)
  | [] => none
  | s :: ss =>
    match k with
    | 0 => (command fuel c s).map fun r => (r.1 :: ss, r.2)
    | j + 1 => (commandTo fuel j c ss).map fun r => (s :: r.1, r.2)

end Sys2Proof.Machine
end

