-- ==== Sys2Proof/Safety.lean ====
section
/-! DEFINITION. What claims are stated in: the invariant of the state, a run's end, and the states that
commands reach. -/

namespace Sys2Proof.Machine

/-- Every entry of a list is a Word of the instance. -/
def allWords (c : Config) (ws : List Word) : Prop := ∀ v ∈ ws, c.inWord v = true

/-- A length that respects a capacity; `none` is unbounded. -/
def withinCap (cap : Option Nat) (n : Nat) : Prop := ∀ m, cap = some m → n ≤ m

/-- The invariant of the state: what 10_state.md says of each element's range (R4, R20 to R29, R45). -/
structure State.Inv (s : State) : Prop where
  /-- The parameters are values R4 admits. -/
  cfgLegal : s.cfg.legal = true
  /-- Memory is in its canonical form. -/
  memCanonical : s.mem.wf = true
  /-- Every listed cell lies below EXTENT, so MEM is 0 at and beyond it (R27). -/
  memBelowExtent : ∀ e ∈ s.mem, e.1 < s.extent
  /-- Every listed cell holds a Word (R27). -/
  memWords : ∀ e ∈ s.mem, s.cfg.inWord e.2 = true
  /-- EXTENT is at most CAP (R45). -/
  extentFits : s.cfg.fits s.extent = true
  /-- PROGRAM holds Words (R28). -/
  programWords : allWords s.cfg s.program
  /-- PROGRAM is no longer than CAP (R201). -/
  programFits : s.cfg.fits s.program.length = true
  /-- IP is a Word (R22). -/
  ipWord : s.cfg.inWord s.ip = true
  /-- RB is a Word (R23). -/
  rbWord : s.cfg.inWord s.rb = true
  /-- The recorded IP is a Word (R26). -/
  frWord : ∀ r, s.fr = some r → s.cfg.inWord r.ip = true
  /-- INQ holds Words (R29). -/
  inqWords : allWords s.cfg s.inq
  /-- OUTQ holds Words (R29). -/
  outqWords : allWords s.cfg s.outq
  /-- INQ holds at most IN_CAP entries (R29). -/
  inqFits : withinCap s.cfg.inCap s.inq.length
  /-- OUTQ holds at most OUT_CAP entries (R29). -/
  outqFits : withinCap s.cfg.outCap s.outq.length

/-- The state `n` steps on, whatever the steps answer. -/
def afterSteps : Nat → State → State
  | 0, s => s
  | n + 1, s => afterSteps n (stepResponse s).1

/-- The fault the resolution of one parameter raises in its role, if any (R67, R68). -/
def resolutionFault (s : State) (rp : Role × Param) : Option FaultKind :=
  match rp.1 with
  | .read =>
    match readParam rp.2 s with
    | .error k => some k
    | .ok _ => none
  | .write =>
    match writeParam rp.2 s with
    | .error k => some k
    | .ok _ => none

/-- A parameter written in Relative mode instead of Position mode, with the same raw operand. -/
def paramAsRelative (p : Param) : Param :=
  match p.mode with
  | .position => { p with mode := .relative }
  | .immediate => p
  | .relative => p

/-- An instruction with each Position parameter written in Relative mode. -/
def instrAsRelative : Instr → Instr
  | .add p0 p1 p2 => .add (paramAsRelative p0) (paramAsRelative p1) (paramAsRelative p2)
  | .mul p0 p1 p2 => .mul (paramAsRelative p0) (paramAsRelative p1) (paramAsRelative p2)
  | .inp p0 => .inp (paramAsRelative p0)
  | .out p0 => .out (paramAsRelative p0)
  | .jnz p0 p1 => .jnz (paramAsRelative p0) (paramAsRelative p1)
  | .jz p0 p1 => .jz (paramAsRelative p0) (paramAsRelative p1)
  | .lt p0 p1 p2 => .lt (paramAsRelative p0) (paramAsRelative p1) (paramAsRelative p2)
  | .eq p0 p1 p2 => .eq (paramAsRelative p0) (paramAsRelative p1) (paramAsRelative p2)
  | .arb p0 => .arb (paramAsRelative p0)
  | .halt => .halt

/-- A successful end of a run (R220): HALTED is true and FR is none. -/
def State.Succeeded (s : State) : Prop := s.halted = true ∧ s.fr = none

/-- A faulted end (R220): never a successful one. -/
def State.Faulted (s : State) : Prop := s.fr ≠ none

/-- The states that commands reach from power-on (R270), on an instance with the parameters `c`. -/
inductive Reachable (c : Config) : State → Prop where
  | powerOn : Reachable c { State.reset with cfg := c }
  | after {s t : State} {cmd : Command} {r : Response} (h : Reachable c s) (hr : Returns cmd s t r) :
      Reachable c t

end Sys2Proof.Machine
end

