-- ==== Sys2Proof/WellFormed.lean ====
section
/-! DEFINITION. The instructions an instance can hold as legal code: every word a Word of the instance (R5,
R60), and no Write-role parameter Immediate (R68, R71). -/

namespace Sys2Proof

/-- A parameter in its role: its raw operand is a Word (R66), and a Write-role parameter is not Immediate
(R68). -/
def Param.wf (c : Config) (r : Role) (p : Param) : Bool :=
  c.inWord p.raw && (r != .write || p.mode != .immediate)

/-- Every parameter is well-formed in the role its opcode gives it (R70), and the opcode word is itself a
Word of the instance (with `WORD_BITS = 8` the word 1101 is not one, 95_test_vectors.md section 2.2). -/
def Instr.wf (c : Config) (i : Instr) : Bool :=
  c.inWord i.headWord && (i.opcode.roles.zip i.params).all fun rp => rp.2.wf c rp.1

end Sys2Proof
end

