-- ==== Sys2Proof/Certificates/Slice0/Obligations.lean ====
section
/-! DEFINITION. The statements for the provers; OBLIGATIONS.json gives each its text and its rules. -/

open Sys2Proof Sys2Proof.Machine

/-! ### Encoding -/

/-- R70, R79: decoding the words of an instruction, whatever words follow, gives the instruction back and
leaves what follows; every mode of every parameter and every raw operand. -/
def Obligations.DecodeOfEncodeIsTheInstruction : Prop :=
  ∀ (i : Instr) (rest : List Word), decode (encode i ++ rest) = .ok (i, rest)

/-- R79: the canonical opcode word is the least of the words that select an instruction, and it selects it. -/
def Obligations.CanonicalWordIsTheLeast : Prop :=
  ∀ (w : Word) (raws rest : List Word) (i : Instr), decode (w :: raws) = .ok (i, rest) →
    i.headWord ≤ w ∧ decode (i.headWord :: raws) = .ok (i, rest)

/-- R63, R64, R65: which opcode words are refused, with which fault and in which order, what every other one
selects, and that a step that fetches a refused word raises that fault. -/
def Obligations.OpcodeWordsAreAcceptedExactly : Prop :=
  ∀ w : Word,
    (w < 0 → decodeWord w = .error .invalidOpcode) ∧
    (0 ≤ w → w.toNat % 100 ∉ [1, 2, 3, 4, 5, 6, 7, 8, 9, 99] → decodeWord w = .error .invalidOpcode) ∧
    (0 ≤ w → w.toNat % 100 ∈ [1, 2, 3, 4, 5, 6, 7, 8, 9, 99] → (∃ k, 2 < digit k (w.toNat / 100)) →
      decodeWord w = .error .invalidParameterMode) ∧
    (0 ≤ w → w.toNat % 100 ∈ [1, 2, 3, 4, 5, 6, 7, 8, 9, 99] → (∀ k, digit k (w.toNat / 100) ≤ 2) →
      ∃ op : Opcode, op.number = w.toNat % 100 ∧ decodeWord w = .ok (op, w.toNat / 100)) ∧
    modeOfDigit 0 = .position ∧ modeOfDigit 1 = .immediate ∧ modeOfDigit 2 = .relative ∧
    (∀ (s : State) (k : FaultKind), s.fr = none → s.halted = false → 0 ≤ s.ip →
      memRead s s.ip.toNat = w → decodeWord w = .error k → step s = .next (takeFault k s))

/-- R60, R65, R79: words written out from the spec's tables decode to the instructions they stand for. -/
def Obligations.WordsOfTheSpecDecode : Prop :=
  decode [1201, 3, 5, 7] = .ok (.add ⟨.relative, 3⟩ ⟨.immediate, 5⟩ ⟨.position, 7⟩, []) ∧
  decode [21202, 1, -1, 2] = .ok (.mul ⟨.relative, 1⟩ ⟨.immediate, -1⟩ ⟨.relative, 2⟩, []) ∧
  decode [203, -2] = .ok (.inp ⟨.relative, -2⟩, []) ∧
  decode [104, 1125899906842624, 99] = .ok (.out ⟨.immediate, 1125899906842624⟩, [99]) ∧
  decode [2105, 1, 0] = .ok (.jnz ⟨.immediate, 1⟩ ⟨.relative, 0⟩, []) ∧
  decode [1006, 101, 0] = .ok (.jz ⟨.position, 101⟩ ⟨.immediate, 0⟩, []) ∧
  decode [22207, 0, 1, 4] = .ok (.lt ⟨.relative, 0⟩ ⟨.relative, 1⟩ ⟨.relative, 4⟩, []) ∧
  decode [1008, 100, 16, 101] = .ok (.eq ⟨.position, 100⟩ ⟨.immediate, 16⟩ ⟨.position, 101⟩, []) ∧
  decode [109, 1] = .ok (.arb ⟨.immediate, 1⟩, []) ∧
  decode [199] = .ok (.halt, []) ∧
  decode [399] = .error .invalidParameterMode

/-- R91 gives the expansions, the words and MOV's copying; the other effects are those of the instructions
expanded to: JMP's is R140's taken jump, MOV's R100's store, and NOP's advance by 3 is R141's untaken jump, which
R80 says and marks as derived. -/
def Obligations.PseudoInstructionsExpand : Prop :=
  (∀ t : Param, encode (pseudoJmp t) = [((5 + 100 * 1 + 1000 * t.mode.digit : Nat) : Int), 1, t.raw]) ∧
  (∀ u d : Param, encode (pseudoMov u d) =
    [((1 + 100 * u.mode.digit + 1000 * 1 + 10000 * d.mode.digit : Nat) : Int), u.raw, 0, d.raw]) ∧
  encode pseudoNop = [1106, 1, 0] ∧
  (∀ (s : State) (t : Param) (v : Word), readParam t s = .ok v → exec (pseudoJmp t) s = .next { s with ip := v }) ∧
  (∀ (s : State) (u d : Param) (v : Word) (a : Int), readParam u s = .ok v → writeParam d s = .ok a →
    s.cfg.inWord v = true → 0 ≤ a → s.cfg.atCap a = false → s.cfg.aboveMax (s.ip + 4) = false →
    exec (pseudoMov u d) s = .next { memWrite s a.toNat v with ip := s.ip + 4 }) ∧
  (∀ s : State, s.cfg.aboveMax (s.ip + 3) = false → exec pseudoNop s = .next { s with ip := s.ip + 3 })

/-! ### Ranges, memory and parameters -/

/-- R5: the range of a Word. -/
def Obligations.WordRangeIsTwosComplement : Prop :=
  ∀ (c : Config) (v : Int),
    (∀ w, c.wordBits = some w →
      (c.inWord v = true ↔ -((2 : Int) ^ (w - 1)) ≤ v ∧ v ≤ (2 : Int) ^ (w - 1) - 1)) ∧
    (c.wordBits = none → c.inWord v = true)

/-- R27, R44: a read at or beyond EXTENT, or at or above the write capacity, gives 0. -/
def Obligations.ReadsBeyondExtentGiveZero : Prop :=
  ∀ (s : State) (a : Nat), s.Inv →
    (s.extent ≤ a → memRead s a = 0) ∧ (s.cfg.atCap a = true → memRead s a = 0)

/-- R45: what a write does to memory and to EXTENT, which addresses pass the check, and that EXTENT stays a
Word. -/
def Obligations.WritesGrowExtentAndAreChecked : Prop :=
  (∀ (s : State) (a : Nat) (v : Word),
    memRead (memWrite s a v) a = v ∧
    (∀ x, x ≠ a → memRead (memWrite s a v) x = memRead s x) ∧
    (s.extent ≤ a → (memWrite s a v).extent = a + 1) ∧
    (a < s.extent → (memWrite s a v).extent = s.extent) ∧
    (s.Inv → ∀ x, s.extent ≤ x → x < a → memRead (memWrite s a v) x = 0) ∧
    (s.Inv → s.cfg.inWord s.extent = true)) ∧
  (∀ (c : Config) (d : Int),
    (c.atCap d = true ↔ (∃ m, c.memWords = some m ∧ (m : Int) ≤ d) ∨
      (∃ w, c.wordBits = some w ∧ (2 : Int) ^ (w - 1) - 1 ≤ d)) ∧
    (d < 0 → checkWriteAddr c d = .error .invalidAddress) ∧
    (0 ≤ d → c.atCap d = true → checkWriteAddr c d = .error .capacityExceeded) ∧
    (0 ≤ d → c.atCap d = false → checkWriteAddr c d = .ok d.toNat))

/-- R52, R53: a Word stored at the address the core fetches from is the Word it decodes. -/
def Obligations.StoresAreSeenByTheNextFetch : Prop :=
  ∀ (s : State) (a : Nat) (v : Word) (i : Instr) (rest : List Word), s.ip = a →
    decode (v :: readWords s (a + 1) (wordLength v - 1)) = .ok (i, rest) →
    fetchInstr (memWrite s a v) = .ok i

/-- R67, R68: what a parameter resolves to, by its mode and role, and that Position equals Relative where RB
is 0. -/
def Obligations.ParametersResolveByModeAndRole : Prop :=
  ∀ (s : State) (raw : Word),
    (raw < 0 → readParam ⟨.position, raw⟩ s = .error .invalidAddress) ∧
    (0 ≤ raw → readParam ⟨.position, raw⟩ s = .ok (memRead s raw.toNat)) ∧
    (s.rb + raw < 0 → readParam ⟨.relative, raw⟩ s = .error .invalidAddress) ∧
    (0 ≤ s.rb + raw → readParam ⟨.relative, raw⟩ s = .ok (memRead s (s.rb + raw).toNat)) ∧
    readParam ⟨.immediate, raw⟩ s = .ok raw ∧
    writeParam ⟨.position, raw⟩ s = .ok raw ∧
    writeParam ⟨.relative, raw⟩ s = .ok (s.rb + raw) ∧
    writeParam ⟨.immediate, raw⟩ s = .error .invalidParameterMode ∧
    (s.rb = 0 → readParam ⟨.relative, raw⟩ s = readParam ⟨.position, raw⟩ s ∧
      writeParam ⟨.relative, raw⟩ s = writeParam ⟨.position, raw⟩ s)

/-- R69: the first parameter, in index order, whose resolution fails ends the step with its fault, before the
action runs. -/
def Obligations.FirstFailingParameterEndsTheStep : Prop :=
  ∀ (i : Instr) (s : State) (k : FaultKind),
    (i.opcode.roles.zip i.params).findSome? (resolutionFault s) = some k →
    exec i s = .next (takeFault k s)

/-! ### The instructions, one statement each -/

/-- R100: the encoding of ADD; where it completes and what it stores; its faults in their order. -/
def Obligations.AddStoresTheExactSum : Prop :=
  ∀ (s : State) (p0 p1 p2 : Param),
    encode (.add p0 p1 p2) =
      [((1 + 100 * p0.mode.digit + 1000 * p1.mode.digit + 10000 * p2.mode.digit : Nat) : Int),
        p0.raw, p1.raw, p2.raw] ∧
    (∀ k, readParam p0 s = .error k → exec (.add p0 p1 p2) s = .next (takeFault k s)) ∧
    (∀ a k, readParam p0 s = .ok a → readParam p1 s = .error k →
      exec (.add p0 p1 p2) s = .next (takeFault k s)) ∧
    (∀ a b k, readParam p0 s = .ok a → readParam p1 s = .ok b → writeParam p2 s = .error k →
      exec (.add p0 p1 p2) s = .next (takeFault k s)) ∧
    ∀ (a b : Word) (d : Int), readParam p0 s = .ok a → readParam p1 s = .ok b → writeParam p2 s = .ok d →
      (s.cfg.inWord (a + b) = true → 0 ≤ d → s.cfg.atCap d = false → s.cfg.aboveMax (s.ip + 4) = false →
        exec (.add p0 p1 p2) s = .next { memWrite s d.toNat (a + b) with ip := s.ip + 4 }) ∧
      (s.cfg.inWord (a + b) = false → exec (.add p0 p1 p2) s = .next (takeFault .overflow s)) ∧
      (s.cfg.inWord (a + b) = true → d < 0 → exec (.add p0 p1 p2) s = .next (takeFault .invalidAddress s)) ∧
      (s.cfg.inWord (a + b) = true → 0 ≤ d → s.cfg.atCap d = true →
        exec (.add p0 p1 p2) s = .next (takeFault .capacityExceeded s)) ∧
      (s.cfg.inWord (a + b) = true → 0 ≤ d → s.cfg.atCap d = false → s.cfg.aboveMax (s.ip + 4) = true →
        exec (.add p0 p1 p2) s = .next (takeFault .overflow s))

/-- R101: the encoding of MUL; where it completes and what it stores; its faults in their order. -/
def Obligations.MulStoresTheExactProduct : Prop :=
  ∀ (s : State) (p0 p1 p2 : Param),
    encode (.mul p0 p1 p2) =
      [((2 + 100 * p0.mode.digit + 1000 * p1.mode.digit + 10000 * p2.mode.digit : Nat) : Int),
        p0.raw, p1.raw, p2.raw] ∧
    (∀ k, readParam p0 s = .error k → exec (.mul p0 p1 p2) s = .next (takeFault k s)) ∧
    (∀ a k, readParam p0 s = .ok a → readParam p1 s = .error k →
      exec (.mul p0 p1 p2) s = .next (takeFault k s)) ∧
    (∀ a b k, readParam p0 s = .ok a → readParam p1 s = .ok b → writeParam p2 s = .error k →
      exec (.mul p0 p1 p2) s = .next (takeFault k s)) ∧
    ∀ (a b : Word) (d : Int), readParam p0 s = .ok a → readParam p1 s = .ok b → writeParam p2 s = .ok d →
      (s.cfg.inWord (a * b) = true → 0 ≤ d → s.cfg.atCap d = false → s.cfg.aboveMax (s.ip + 4) = false →
        exec (.mul p0 p1 p2) s = .next { memWrite s d.toNat (a * b) with ip := s.ip + 4 }) ∧
      (s.cfg.inWord (a * b) = false → exec (.mul p0 p1 p2) s = .next (takeFault .overflow s)) ∧
      (s.cfg.inWord (a * b) = true → d < 0 → exec (.mul p0 p1 p2) s = .next (takeFault .invalidAddress s)) ∧
      (s.cfg.inWord (a * b) = true → 0 ≤ d → s.cfg.atCap d = true →
        exec (.mul p0 p1 p2) s = .next (takeFault .capacityExceeded s)) ∧
      (s.cfg.inWord (a * b) = true → 0 ≤ d → s.cfg.atCap d = false → s.cfg.aboveMax (s.ip + 4) = true →
        exec (.mul p0 p1 p2) s = .next (takeFault .overflow s))

/-- R120: the encoding of IN; its hold; where it completes, what it pops and stores; its faults in order. -/
def Obligations.InStoresTheOldestInput : Prop :=
  ∀ (s : State) (p : Param),
    encode (.inp p) = [((3 + 100 * p.mode.digit : Nat) : Int), p.raw] ∧
    (p.mode = .immediate → exec (.inp p) s = .next (takeFault .invalidParameterMode s)) ∧
    ∀ d : Int, writeParam p s = .ok d →
      (s.inq = [] → exec (.inp p) s = .next s ∧ commit 2 (outcomeOf (.inp p) s) s = (s, .awaitInput)) ∧
      ∀ (v : Word) (q : List Word), s.inq = v :: q →
        (0 ≤ d → s.cfg.atCap d = false → s.cfg.aboveMax (s.ip + 2) = false →
          exec (.inp p) s = .next { memWrite s d.toNat v with inq := q, ip := s.ip + 2 }) ∧
        (d < 0 → exec (.inp p) s = .next (takeFault .invalidAddress s)) ∧
        (0 ≤ d → s.cfg.atCap d = true → exec (.inp p) s = .next (takeFault .capacityExceeded s)) ∧
        (0 ≤ d → s.cfg.atCap d = false → s.cfg.aboveMax (s.ip + 2) = true →
          exec (.inp p) s = .next (takeFault .overflow s))

/-- R121: the encoding of OUT; its hold; where it completes and what it pushes; its fault. -/
def Obligations.OutAppendsTheValue : Prop :=
  ∀ (s : State) (p : Param),
    encode (.out p) = [((4 + 100 * p.mode.digit : Nat) : Int), p.raw] ∧
    (∀ k, readParam p s = .error k → exec (.out p) s = .next (takeFault k s)) ∧
    ∀ v : Word, readParam p s = .ok v →
      (s.cfg.outCap = some s.outq.length →
        exec (.out p) s = .next s ∧ commit 2 (outcomeOf (.out p) s) s = (s, .awaitOutputSpace)) ∧
      (s.cfg.outCap ≠ some s.outq.length → s.cfg.aboveMax (s.ip + 2) = false →
        exec (.out p) s = .next { s with outq := s.outq ++ [v], ip := s.ip + 2 }) ∧
      (s.cfg.outCap ≠ some s.outq.length → s.cfg.aboveMax (s.ip + 2) = true →
        exec (.out p) s = .next (takeFault .overflow s))

/-- R140: the encoding of JNZ; the taken jump, the untaken one, and its fault. -/
def Obligations.JnzJumpsWhenNotZero : Prop :=
  ∀ (s : State) (p0 p1 : Param),
    encode (.jnz p0 p1) =
      [((5 + 100 * p0.mode.digit + 1000 * p1.mode.digit : Nat) : Int), p0.raw, p1.raw] ∧
    (∀ k, readParam p0 s = .error k → exec (.jnz p0 p1) s = .next (takeFault k s)) ∧
    (∀ c k, readParam p0 s = .ok c → readParam p1 s = .error k →
      exec (.jnz p0 p1) s = .next (takeFault k s)) ∧
    ∀ c t : Word, readParam p0 s = .ok c → readParam p1 s = .ok t →
      (c ≠ 0 → exec (.jnz p0 p1) s = .next { s with ip := t }) ∧
      (c = 0 → s.cfg.aboveMax (s.ip + 3) = false → exec (.jnz p0 p1) s = .next { s with ip := s.ip + 3 }) ∧
      (c = 0 → s.cfg.aboveMax (s.ip + 3) = true → exec (.jnz p0 p1) s = .next (takeFault .overflow s))

/-- R141: the encoding of JZ; the taken jump, the untaken one, and its fault. -/
def Obligations.JzJumpsWhenZero : Prop :=
  ∀ (s : State) (p0 p1 : Param),
    encode (.jz p0 p1) =
      [((6 + 100 * p0.mode.digit + 1000 * p1.mode.digit : Nat) : Int), p0.raw, p1.raw] ∧
    (∀ k, readParam p0 s = .error k → exec (.jz p0 p1) s = .next (takeFault k s)) ∧
    (∀ c k, readParam p0 s = .ok c → readParam p1 s = .error k →
      exec (.jz p0 p1) s = .next (takeFault k s)) ∧
    ∀ c t : Word, readParam p0 s = .ok c → readParam p1 s = .ok t →
      (c = 0 → exec (.jz p0 p1) s = .next { s with ip := t }) ∧
      (c ≠ 0 → s.cfg.aboveMax (s.ip + 3) = false → exec (.jz p0 p1) s = .next { s with ip := s.ip + 3 }) ∧
      (c ≠ 0 → s.cfg.aboveMax (s.ip + 3) = true → exec (.jz p0 p1) s = .next (takeFault .overflow s))

/-- R160: the encoding of LT; where it completes and what it stores; its faults in their order. -/
def Obligations.LtStoresTheSignedComparison : Prop :=
  ∀ (s : State) (p0 p1 p2 : Param),
    encode (.lt p0 p1 p2) =
      [((7 + 100 * p0.mode.digit + 1000 * p1.mode.digit + 10000 * p2.mode.digit : Nat) : Int),
        p0.raw, p1.raw, p2.raw] ∧
    (∀ k, readParam p0 s = .error k → exec (.lt p0 p1 p2) s = .next (takeFault k s)) ∧
    (∀ a k, readParam p0 s = .ok a → readParam p1 s = .error k →
      exec (.lt p0 p1 p2) s = .next (takeFault k s)) ∧
    (∀ a b k, readParam p0 s = .ok a → readParam p1 s = .ok b → writeParam p2 s = .error k →
      exec (.lt p0 p1 p2) s = .next (takeFault k s)) ∧
    ∀ (a b : Word) (d : Int), readParam p0 s = .ok a → readParam p1 s = .ok b → writeParam p2 s = .ok d →
      (0 ≤ d → s.cfg.atCap d = false → s.cfg.aboveMax (s.ip + 4) = false →
        exec (.lt p0 p1 p2) s =
          .next { memWrite s d.toNat (if a < b then 1 else 0) with ip := s.ip + 4 }) ∧
      (d < 0 → exec (.lt p0 p1 p2) s = .next (takeFault .invalidAddress s)) ∧
      (0 ≤ d → s.cfg.atCap d = true → exec (.lt p0 p1 p2) s = .next (takeFault .capacityExceeded s)) ∧
      (0 ≤ d → s.cfg.atCap d = false → s.cfg.aboveMax (s.ip + 4) = true →
        exec (.lt p0 p1 p2) s = .next (takeFault .overflow s))

/-- R161: the encoding of EQ; where it completes and what it stores; its faults in their order. -/
def Obligations.EqStoresTheEquality : Prop :=
  ∀ (s : State) (p0 p1 p2 : Param),
    encode (.eq p0 p1 p2) =
      [((8 + 100 * p0.mode.digit + 1000 * p1.mode.digit + 10000 * p2.mode.digit : Nat) : Int),
        p0.raw, p1.raw, p2.raw] ∧
    (∀ k, readParam p0 s = .error k → exec (.eq p0 p1 p2) s = .next (takeFault k s)) ∧
    (∀ a k, readParam p0 s = .ok a → readParam p1 s = .error k →
      exec (.eq p0 p1 p2) s = .next (takeFault k s)) ∧
    (∀ a b k, readParam p0 s = .ok a → readParam p1 s = .ok b → writeParam p2 s = .error k →
      exec (.eq p0 p1 p2) s = .next (takeFault k s)) ∧
    ∀ (a b : Word) (d : Int), readParam p0 s = .ok a → readParam p1 s = .ok b → writeParam p2 s = .ok d →
      (0 ≤ d → s.cfg.atCap d = false → s.cfg.aboveMax (s.ip + 4) = false →
        exec (.eq p0 p1 p2) s =
          .next { memWrite s d.toNat (if a = b then 1 else 0) with ip := s.ip + 4 }) ∧
      (d < 0 → exec (.eq p0 p1 p2) s = .next (takeFault .invalidAddress s)) ∧
      (0 ≤ d → s.cfg.atCap d = true → exec (.eq p0 p1 p2) s = .next (takeFault .capacityExceeded s)) ∧
      (0 ≤ d → s.cfg.atCap d = false → s.cfg.aboveMax (s.ip + 4) = true →
        exec (.eq p0 p1 p2) s = .next (takeFault .overflow s))

/-- R180: the encoding of ARB; where it completes and what RB becomes; its two faults in their order. -/
def Obligations.ArbMovesTheRelativeBase : Prop :=
  ∀ (s : State) (p : Param),
    encode (.arb p) = [((9 + 100 * p.mode.digit : Nat) : Int), p.raw] ∧
    (∀ k, readParam p s = .error k → exec (.arb p) s = .next (takeFault k s)) ∧
    ∀ v : Word, readParam p s = .ok v →
      (s.cfg.inWord (s.rb + v) = true → s.cfg.aboveMax (s.ip + 2) = false →
        exec (.arb p) s = .next { s with rb := s.rb + v, ip := s.ip + 2 }) ∧
      (s.cfg.inWord (s.rb + v) = false → exec (.arb p) s = .next (takeFault .overflow s)) ∧
      (s.cfg.inWord (s.rb + v) = true → s.cfg.aboveMax (s.ip + 2) = true →
        exec (.arb p) s = .next (takeFault .overflow s))

/-- R190: the encoding of HALT; that it sets HALTED and leaves IP and the rest; that its step answers HALTED
and the next one raises AlreadyHalted; which other words are HALT. -/
def Obligations.HaltSetsHaltedAndKeepsIp : Prop :=
  encode .halt = [99] ∧
  (∀ s : State, exec .halt s = .next { s with halted := true } ∧
    commit 1 (outcomeOf .halt s) s = ({ s with halted := true }, .halted) ∧
    (s.fr = none → step { s with halted := true } =
      .next (takeFault .alreadyHalted { s with halted := true }))) ∧
  (∀ (w : Word) (raws : List Word), 0 ≤ w → w.toNat % 100 = 99 →
    ((∀ k, digit k (w.toNat / 100) ≤ 2) → decode (w :: raws) = .ok (.halt, raws)) ∧
    ((∃ k, 2 < digit k (w.toNat / 100)) → decode (w :: raws) = .error .invalidParameterMode))

/-! ### Frames -/

/-- R20, R45, R245: ADD, MUL, LT and EQ either take a fault, or change nothing but IP, the Word at the
Write-role address, and EXTENT where that address lies at or beyond it. -/
def Obligations.StoringInstructionsFrame : Prop :=
  ∀ (i : Instr) (s t : State) (p0 p1 p2 : Param),
    (i = .add p0 p1 p2 ∨ i = .mul p0 p1 p2 ∨ i = .lt p0 p1 p2 ∨ i = .eq p0 p1 p2) → exec i s = .next t →
    (∃ k, t = takeFault k s) ∨
    ∃ d : Int, writeParam p2 s = .ok d ∧ 0 ≤ d ∧ t.cfg = s.cfg ∧ t.program = s.program ∧ t.rb = s.rb ∧
      t.halted = s.halted ∧ t.fr = s.fr ∧ t.inq = s.inq ∧ t.outq = s.outq ∧
      (t.extent : Int) = max (s.extent : Int) (d + 1) ∧
      ∀ a : Nat, (a : Int) ≠ d → memRead t a = memRead s a

/-- R120, R245: IN either takes a fault, or holds and changes nothing with INQ empty, or changes nothing but
IP, the head of INQ, the Word at the Write-role address, and EXTENT. -/
def Obligations.InputInstructionFrame : Prop :=
  ∀ (s t : State) (p : Param), exec (.inp p) s = .next t →
    (∃ k, t = takeFault k s) ∨ (s.inq = [] ∧ t = s) ∨
    ∃ d : Int, writeParam p s = .ok d ∧ 0 ≤ d ∧ t.cfg = s.cfg ∧ t.program = s.program ∧ t.rb = s.rb ∧
      t.halted = s.halted ∧ t.fr = s.fr ∧ (∃ v, s.inq = v :: t.inq) ∧ t.outq = s.outq ∧
      (t.extent : Int) = max (s.extent : Int) (d + 1) ∧
      ∀ a : Nat, (a : Int) ≠ d → memRead t a = memRead s a

/-- R121, R245: OUT either takes a fault, or holds and changes nothing with OUTQ full, or changes nothing but
IP and the tail of OUTQ, which gains the value read; no address of memory changes. -/
def Obligations.OutputInstructionFrame : Prop :=
  ∀ (s t : State) (p : Param), exec (.out p) s = .next t →
    (∃ k, t = takeFault k s) ∨ (s.cfg.outCap = some s.outq.length ∧ t = s) ∨
    ((∃ v, readParam p s = .ok v ∧ t.outq = s.outq ++ [v]) ∧ t = { s with outq := t.outq, ip := t.ip } ∧
      ∀ a : Nat, memRead t a = memRead s a)

/-- R140, R141, R245: JNZ and JZ either take a fault, or change nothing but IP; no address of memory
changes. -/
def Obligations.JumpInstructionsFrame : Prop :=
  ∀ (i : Instr) (s t : State) (p0 p1 : Param), (i = .jnz p0 p1 ∨ i = .jz p0 p1) → exec i s = .next t →
    (∃ k, t = takeFault k s) ∨ (t = { s with ip := t.ip } ∧ ∀ a : Nat, memRead t a = memRead s a)

/-- R180, R190, R245: ARB either takes a fault, or changes nothing but RB and IP; HALT changes nothing but
HALTED; no address of memory changes. -/
def Obligations.BaseAndHaltInstructionsFrame : Prop :=
  (∀ (s t : State) (p : Param), exec (.arb p) s = .next t →
    (∃ k, t = takeFault k s) ∨
    (t = { s with rb := t.rb, ip := t.ip } ∧ ∀ a : Nat, memRead t a = memRead s a)) ∧
  (∀ s t : State, exec .halt s = .next t →
    t = { s with halted := t.halted } ∧ ∀ a : Nat, memRead t a = memRead s a)

/-! ### The step -/

/-- R78: where the words at IP decode to an instruction, a step of an instance that is neither faulted nor
halted is that instruction's meaning, with nothing around it. -/
def Obligations.StepRunsTheDecodedInstruction : Prop :=
  ∀ (s : State) (i : Instr) (rest : List Word), s.fr = none → s.halted = false → 0 ≤ s.ip →
    decode (instrWords s) = .ok (i, rest) → step s = exec i s

/-- R60, R78: where memory holds the words of an instruction from IP on, a step runs that instruction. -/
def Obligations.StepRunsTheEncodedInstruction : Prop :=
  ∀ (s : State) (i : Instr), s.fr = none → s.halted = false → 0 ≤ s.ip →
    readWords s s.ip.toNat i.opcode.stride = encode i → step s = exec i s

/-- R61: the two checks at the entry of a step, in their order. -/
def Obligations.StepEntryChecks : Prop :=
  ∀ s : State,
    (∀ r, s.fr = some r → step s = .next s ∧ stepResponse s = (s, .fault r.kind r.ip)) ∧
    (s.fr = none → s.halted = true → step s = .next (takeFault .alreadyHalted s) ∧
      (stepResponse s).2 = .fault .alreadyHalted s.ip)

/-- R62, which the spec marks as derived from R44 and R46: a fetch at a negative IP raises InvalidAddress, a
fetch at or beyond EXTENT raises InvalidOpcode, and only a jump makes IP negative. -/
def Obligations.FetchFaults : Prop :=
  (∀ s : State, s.fr = none → s.halted = false → s.ip < 0 → step s = .next (takeFault .invalidAddress s)) ∧
  (∀ s : State, s.Inv → s.fr = none → s.halted = false → 0 ≤ s.ip → (s.extent : Int) ≤ s.ip →
    step s = .next (takeFault .invalidOpcode s)) ∧
  (∀ s t : State, step s = .next t → 0 ≤ s.ip → t.ip < 0 →
    ∃ p0 p1, fetchInstr s = .ok (.jnz p0 p1) ∨ fetchInstr s = .ok (.jz p0 p1))

/-- R73, R75: what the commit of each outcome does to the state, and what the step then returns. -/
def Obligations.CommitOfEachOutcome : Prop :=
  ∀ (s : State) (n : Nat) (e : Effects) (t : Word),
    (s.cfg.aboveMax (s.ip + n) = false →
      commit n (.advance e) s = ({ applyEffects e s with ip := s.ip + n }, .continued)) ∧
    (s.cfg.aboveMax (s.ip + n) = true →
      commit n (.advance e) s = (takeFault .overflow s, .fault .overflow s.ip)) ∧
    commit n (.jumpTo t e) s = ({ applyEffects e s with ip := t }, .continued) ∧
    commit n .halt s = ({ s with halted := true }, .halted)

/-- R77, R203: every step answers a next state, never a fault or refusal of the interface's, and it is the
state the step's response goes with. -/
def Obligations.StepAgreesWithItsResponse : Prop :=
  ∀ s : State, step s = .next (stepResponse s).1

/-- R245, R246: a step that raises a fault changes nothing but FR, which records the kind and the IP the step
began with; a run command that issued the step ends with that fault; from then on every step returns it and
changes nothing. -/
def Obligations.FaultsArePreciseAndSticky : Prop :=
  ∀ (s : State) (k : FaultKind) (ip : Word), s.fr = none → (stepResponse s).2 = .fault k ip →
    ip = s.ip ∧ (stepResponse s).1 = takeFault k s ∧
    (∀ n, runUntilComplete (n + 1) s = (takeFault k s, .result (.fault k ip)) ∧
      runUntilOutput (n + 1) s = (takeFault k s, .result (.fault k ip))) ∧
    ∀ n, afterSteps n (takeFault k s) = takeFault k s ∧
      stepResponse (afterSteps n (takeFault k s)) = (takeFault k s, .fault k ip)

/-- R74: a hold changes nothing and comes only from IN with INQ empty or OUT with OUTQ full; the next step
holds again, and an IN_PUSH, or an OUT_POP, lifts it. -/
def Obligations.HoldsChangeNothingUntilLifted : Prop :=
  ∀ s : State,
    ((stepResponse s).2 = .awaitInput →
      (stepResponse s).1 = s ∧ s.inq = [] ∧ (∃ p, fetchInstr s = .ok (.inp p)) ∧
      ∀ (v : Int) (t : State), inPushCommand v s = (t, .ok) → (stepResponse t).2 ≠ .awaitInput) ∧
    ((stepResponse s).2 = .awaitOutputSpace →
      (stepResponse s).1 = s ∧ s.cfg.outCap = some s.outq.length ∧ (∃ p, fetchInstr s = .ok (.out p)) ∧
      ∀ (v : Word) (t : State), outPopCommand s = (t, .value v) → (stepResponse t).2 ≠ .awaitOutputSpace)

/-- R24: HALT is the only instruction that sets HALTED, nothing else of the step goes with it, and a step
answers HALTED exactly when HALT commits. -/
def Obligations.OnlyHaltSetsHalted : Prop :=
  ∀ s t : State, step s = .next t →
    (t.halted = true → s.halted = true ∨ (fetchInstr s = .ok .halt ∧ t = { s with halted := true })) ∧
    (s.halted = true → t.halted = true) ∧
    ((stepResponse s).2 = .halted ↔ s.fr = none ∧ s.halted = false ∧ fetchInstr s = .ok .halt)

/-- R23: a step changes RB only where ARB commits, and then by the value ARB reads. -/
def Obligations.OnlyArbChangesTheRelativeBase : Prop :=
  ∀ s t : State, step s = .next t → t.rb ≠ s.rb →
    ∃ p v, fetchInstr s = .ok (.arb p) ∧ readParam p s = .ok v ∧ t.rb = s.rb + v

/-- R29: a step takes from INQ only its head and only by IN, and adds to OUTQ only at its tail and only by
OUT. -/
def Obligations.QueuesMoveOnlyThroughInAndOut : Prop :=
  ∀ s t : State, step s = .next t →
    (t.inq = s.inq ∨ ∃ p v, fetchInstr s = .ok (.inp p) ∧ s.inq = v :: t.inq) ∧
    (t.outq = s.outq ∨ ∃ p v, fetchInstr s = .ok (.out p) ∧ readParam p s = .ok v ∧ t.outq = s.outq ++ [v])

/-- R28, R45: no step changes PROGRAM or a parameter of the instance, or shrinks EXTENT. -/
def Obligations.StepKeepsProgramAndNeverShrinksMemory : Prop :=
  ∀ s t : State, step s = .next t → t.program = s.program ∧ t.cfg = s.cfg ∧ s.extent ≤ t.extent

/-- R142, which the spec marks as derived from R62 and R75: a taken jump sets IP to the target exactly,
whatever it is; a negative target raises InvalidAddress at the next fetch, which records it, and one at or
beyond EXTENT raises InvalidOpcode there. -/
def Obligations.JumpTargetsAreCheckedAtTheNextFetch : Prop :=
  ∀ (s : State) (p0 p1 : Param) (c t : Word), readParam p0 s = .ok c → readParam p1 s = .ok t →
    (c ≠ 0 → exec (.jnz p0 p1) s = .next { s with ip := t }) ∧
    (c = 0 → exec (.jz p0 p1) s = .next { s with ip := t }) ∧
    (s.fr = none → s.halted = false → t < 0 →
      step { s with ip := t } = .next { s with ip := t, fr := some { kind := .invalidAddress, ip := t } }) ∧
    (s.Inv → s.fr = none → s.halted = false → 0 ≤ t → (s.extent : Int) ≤ t →
      step { s with ip := t } = .next { s with ip := t, fr := some { kind := .invalidOpcode, ip := t } })

/-- R67: with RB = 0, writing every Position parameter of an instruction in Relative mode changes nothing of
what it does. -/
def Obligations.PositionEqualsRelativeAtBaseZero : Prop :=
  ∀ (i : Instr) (s : State), s.rb = 0 → exec (instrAsRelative i) s = exec i s

/-- R102, R247, R248: an unbounded width never raises Overflow, and with unbounded memory too no step raises
CapacityExceeded. -/
def Obligations.UnboundedInstancesNeverOverflow : Prop :=
  ∀ (s t : State) (r : FaultRecord), step s = .next t → s.fr = none → t.fr = some r →
    s.cfg.wordBits = none →
    r.kind ≠ .overflow ∧ (s.cfg.memWords = none → r.kind ≠ .capacityExceeded)

/-! ### Invariants -/

/-- R33: the state at power-on meets the invariant. -/
def Obligations.PowerOnMeetsTheInvariant : Prop := State.reset.Inv

/-- R20 to R29, R45: every step keeps the invariant: Words in range, memory canonical and below EXTENT, EXTENT
at most CAP, queues within their capacities. -/
def Obligations.StepKeepsTheInvariant : Prop := ∀ s t : State, s.Inv → step s = .next t → t.Inv

/-- R20 to R29, R218: every command that returns keeps the invariant. -/
def Obligations.CommandsKeepTheInvariant : Prop :=
  ∀ (c : Command) (s t : State) (r : Response), s.Inv → Returns c s t r → t.Inv

/-- R4, R33, R218: whatever a host's commands reach from power-on, on an instance with legal parameters, meets
the invariant and has those parameters. That the parameters stand in the state, so that a command could change
them, is the model's choice (notes/assumptions/1.md, DESIGN CHOICE). -/
def Obligations.ReachableStatesMeetTheInvariant : Prop :=
  ∀ (c : Config) (s : State), c.legal = true → Reachable c s → s.Inv ∧ s.cfg = c

/-! ### Power-on, RESET and LOAD -/

/-- R270: the state at power-on, and its first step. -/
def Obligations.PowerOnState : Prop :=
  State.reset.program = [] ∧ (∀ a, memRead State.reset a = 0) ∧ State.reset.extent = 0 ∧
  State.reset.ip = 0 ∧ State.reset.rb = 0 ∧ State.reset.halted = false ∧ State.reset.fr = none ∧
  State.reset.inq = [] ∧ State.reset.outq = [] ∧
  step State.reset = .next { State.reset with fr := some { kind := .invalidOpcode, ip := 0 } }

/-- R271: RESET makes memory exactly the program, zeroes the rest, keeps PROGRAM and the queues, and is
idempotent. -/
def Obligations.ResetRestoresTheProgram : Prop :=
  ∀ s : State,
    (∀ a : Nat, memRead (resetState s) a = s.program.getD a 0) ∧
    (resetState s).extent = s.program.length ∧ (resetState s).ip = 0 ∧ (resetState s).rb = 0 ∧
    (resetState s).halted = false ∧ (resetState s).fr = none ∧ (resetState s).inq = s.inq ∧
    (resetState s).outq = s.outq ∧ (resetState s).program = s.program ∧
    resetState (resetState s) = resetState s

/-- R200: what LOAD does with a text that parses and with one that does not. -/
def Obligations.LoadParsesAndResets : Prop :=
  ∀ (s : State) (text : List Char),
    (∀ ws, parseProgram s.cfg text = some ws → loadCommand text s = (resetState { s with program := ws }, .ok)) ∧
    (parseProgram s.cfg text = none → loadCommand text s = (s, .loadError))

/-- R272, which the spec marks as derived from R200 and R271: after a successful LOAD, PEEK at each program
offset gives the program's Word and 0 beyond, and the queues are those before. -/
def Obligations.LoadThenPeekGivesTheProgram : Prop :=
  ∀ (s t : State) (text : List Char), loadCommand text s = (t, .ok) →
    parseProgram s.cfg text = some t.program ∧ t.inq = s.inq ∧ t.outq = s.outq ∧
    (∀ a : Nat, ∀ h : a < t.program.length, peekCommand a t = .value t.program[a]) ∧
    (∀ a : Nat, t.program.length ≤ a → peekCommand a t = .value 0)

/-- R201: LOAD's parser accepts exactly the texts of the grammar whose literals are Words and that fit below
CAP, and gives each its sequence. -/
def Obligations.ParserAcceptsExactlyTheGrammar : Prop :=
  ∀ (c : Config) (text : List Char) (ws : List Word),
    parseProgram c text = some ws ↔
      ProgramText text ws ∧ (∀ v ∈ ws, c.inWord v = true) ∧ c.fits ws.length = true

/-! ### Queue ports, read-out, run commands -/

/-- R210 to R213: the four queue ports, what each does and answers. -/
def Obligations.QueuePorts : Prop :=
  ∀ s : State,
    (∀ v : Int, s.cfg.inWord v = false →
      inPushCommand v s = (s, .notAWord) ∧ outPushCommand v s = (s, .notAWord)) ∧
    (∀ v : Int, s.cfg.inWord v = true →
      (s.cfg.inCap = some s.inq.length → inPushCommand v s = (s, .full)) ∧
      (s.cfg.inCap ≠ some s.inq.length → inPushCommand v s = ({ s with inq := s.inq ++ [v] }, .ok)) ∧
      (s.cfg.outCap = some s.outq.length → outPushCommand v s = (s, .full)) ∧
      (s.cfg.outCap ≠ some s.outq.length → outPushCommand v s = ({ s with outq := s.outq ++ [v] }, .ok))) ∧
    (s.inq = [] → inPopCommand s = (s, .empty)) ∧
    (∀ v q, s.inq = v :: q → inPopCommand s = ({ s with inq := q }, .value v)) ∧
    (s.outq = [] → outPopCommand s = (s, .empty)) ∧
    (∀ v q, s.outq = v :: q → outPopCommand s = ({ s with outq := q }, .value v))

/-- R215, R216, R217: the read-out ports change nothing, and what they answer. -/
def Obligations.ReadOutPortsOnlyRead : Prop :=
  ∀ (fuel : Nat) (s : State),
    (∀ a : Int, a < 0 → command fuel (.peek a) s = some (s, .invalidAddress)) ∧
    (∀ a : Int, 0 ≤ a → command fuel (.peek a) s = some (s, .value (memRead s a.toNat))) ∧
    command fuel .snapshot s = some (s, .words ((List.range s.extent).map (memRead s))) ∧
    (∀ n v, hostRegister s n = some v → command fuel (.readReg n) s = some (s, .value v)) ∧
    (∀ n, 7 ≤ n → command fuel (.readReg n) s = some (s, .noSuchRegister))

/-- R30, R240: the host registers, the fields of STATUS, and the code of each fault kind. -/
def Obligations.HostRegisterMap : Prop :=
  ∀ s : State,
    hostRegister s 0 = some s.ip ∧ hostRegister s 1 = some s.rb ∧
    hostRegister s 2 = some (statusRegister s) ∧
    (statusRegister s % 2 = 1 ↔ s.halted = true) ∧
    (s.fr = none → statusRegister s / 2 = 0) ∧
    (∀ r, s.fr = some r → statusRegister s / 2 = faultCode r.kind) ∧
    faultCode .invalidAddress = 1 ∧ faultCode .invalidOpcode = 2 ∧ faultCode .invalidParameterMode = 3 ∧
    faultCode .alreadyHalted = 4 ∧ faultCode .overflow = 5 ∧ faultCode .capacityExceeded = 6 ∧
    0 ≤ statusRegister s ∧ statusRegister s < 14 ∧
    (∀ r, s.fr = some r → hostRegister s 3 = some r.ip) ∧ (s.fr = none → hostRegister s 3 = some 0) ∧
    hostRegister s 4 = some (s.inq.length : Int) ∧ hostRegister s 5 = some (s.outq.length : Int) ∧
    hostRegister s 6 = some (s.extent : Int) ∧
    (∀ n, 7 ≤ n → hostRegister s n = none)

/-- R31: the three run states. -/
def Obligations.RunStatesAreDerived : Prop :=
  ∀ s : State,
    (runState s = .ready ↔ s.halted = false ∧ s.fr = none) ∧
    (runState s = .halted ↔ s.halted = true ∧ s.fr = none) ∧
    (runState s = .faulted ↔ s.fr ≠ none)

/-- R206: a run with a budget takes at most that many steps, and answers BUDGET_EXHAUSTED exactly when all of
them continued (and, for RUN_UNTIL_OUTPUT, none was an OUT), in the state after them. -/
def Obligations.BudgetBoundsTheRun : Prop :=
  ∀ (b : Nat) (s : State),
    ((runUntilComplete b s).2 = .budgetExhausted ↔ ∀ k < b, (stepResponse (afterSteps k s)).2 = .continued) ∧
    ((runUntilComplete b s).2 = .budgetExhausted → (runUntilComplete b s).1 = afterSteps b s) ∧
    (∃ k ≤ b, (runUntilComplete b s).1 = afterSteps k s) ∧
    ((runUntilOutput b s).2 = .budgetExhausted ↔
      ∀ k < b, (stepResponse (afterSteps k s)).2 = .continued ∧ nextIsOut (afterSteps k s) = false) ∧
    ((runUntilOutput b s).2 = .budgetExhausted → (runUntilOutput b s).1 = afterSteps b s) ∧
    (∃ k ≤ b, (runUntilOutput b s).1 = afterSteps k s ∨
      (runUntilOutput b s).1 = (outPopCommand (afterSteps k s)).1) ∧
    runUntilComplete 0 s = (s, .budgetExhausted) ∧ runUntilOutput 0 s = (s, .budgetExhausted)

/-- R204, R216, R220: what RUN_UNTIL_COMPLETE answers and leaves, by its first step that does not continue:
COMPLETE with the EXTENT words of the final memory after a HALT, and a hold or a fault as the step answers it.
COMPLETE comes only at a successful end, so reached. An unbounded run answers what some finite budget shows
(notes/assumptions/8.md, DESIGN CHOICE). -/
def Obligations.CompleteIsASuccessfulEnd : Prop :=
  ∀ (b : Nat) (s : State),
    (∀ (t : State) (ws : List Word), runUntilComplete b s = (t, .complete ws) →
      t.Succeeded ∧ ws.length = t.extent ∧ ws = snapshotWords t ∧
      ∃ k < b, t = afterSteps (k + 1) s ∧ (stepResponse (afterSteps k s)).2 = .halted ∧
        ∀ j < k, (stepResponse (afterSteps j s)).2 = .continued) ∧
    (∀ k < b, (∀ j < k, (stepResponse (afterSteps j s)).2 = .continued) →
      ((stepResponse (afterSteps k s)).2 = .halted →
        runUntilComplete b s = (afterSteps (k + 1) s, .complete (snapshotWords (afterSteps (k + 1) s)))) ∧
      ((stepResponse (afterSteps k s)).2 = .awaitInput →
        runUntilComplete b s = (afterSteps (k + 1) s, .result .awaitInput)) ∧
      ((stepResponse (afterSteps k s)).2 = .awaitOutputSpace →
        runUntilComplete b s = (afterSteps (k + 1) s, .result .awaitOutputSpace)) ∧
      (∀ kind ip, (stepResponse (afterSteps k s)).2 = .fault kind ip →
        runUntilComplete b s = (afterSteps (k + 1) s, .result (.fault kind ip)))) ∧
    (∀ (t : State) (r : Response), Returns (.runUntilComplete none) s t r ↔
      ∃ n, runUntilComplete n s = (t, r) ∧ r ≠ .budgetExhausted)

/-- R205: what RUN_UNTIL_OUTPUT answers and leaves, by its first step that is a committed OUT or does not
continue: after the OUT, the oldest entry of OUTQ, which is removed; NO_VALUE after a HALT; a hold or a fault as
the step answers it. A value comes only after an OUT, so reached, and OUTQ is never found empty. The first clause
says what `nextIsOut` means. An unbounded run answers what some finite budget shows (notes/assumptions/8.md,
DESIGN CHOICE). -/
def Obligations.RunUntilOutputReturnsTheOldest : Prop :=
  (∀ u : State, nextIsOut u = true ↔ ∃ p, fetchInstr u = .ok (.out p)) ∧
  ∀ (b : Nat) (s : State),
    (runUntilOutput b s).2 ≠ .empty ∧
    (∀ (t : State) (v : Word), runUntilOutput b s = (t, .value v) →
      ∃ k < b, (∃ p, fetchInstr (afterSteps k s) = .ok (.out p)) ∧
        (stepResponse (afterSteps k s)).2 = .continued ∧
        (afterSteps (k + 1) s).outq = v :: t.outq ∧ t = { afterSteps (k + 1) s with outq := t.outq } ∧
        ∀ j < k, (stepResponse (afterSteps j s)).2 = .continued ∧ nextIsOut (afterSteps j s) = false) ∧
    (∀ k < b,
      (∀ j < k, (stepResponse (afterSteps j s)).2 = .continued ∧ nextIsOut (afterSteps j s) = false) →
      ((∃ p, fetchInstr (afterSteps k s) = .ok (.out p)) → (stepResponse (afterSteps k s)).2 = .continued →
        ∃ v q, (afterSteps (k + 1) s).outq = v :: q ∧
          runUntilOutput b s = ({ afterSteps (k + 1) s with outq := q }, .value v)) ∧
      ((stepResponse (afterSteps k s)).2 = .halted →
        runUntilOutput b s = (afterSteps (k + 1) s, .noValue)) ∧
      ((stepResponse (afterSteps k s)).2 = .awaitInput →
        runUntilOutput b s = (afterSteps (k + 1) s, .result .awaitInput)) ∧
      ((stepResponse (afterSteps k s)).2 = .awaitOutputSpace →
        runUntilOutput b s = (afterSteps (k + 1) s, .result .awaitOutputSpace)) ∧
      (∀ kind ip, (stepResponse (afterSteps k s)).2 = .fault kind ip →
        runUntilOutput b s = (afterSteps (k + 1) s, .result (.fault kind ip)))) ∧
    (∀ (t : State) (r : Response), Returns (.runUntilOutput none) s t r ↔
      ∃ n, runUntilOutput n s = (t, r) ∧ r ≠ .budgetExhausted)

/-- R221, which the spec marks as derived from R78: what a command leaves and answers is determined by the
state and the command, the unbounded runs among them. -/
def Obligations.CommandsAreDeterministic : Prop :=
  ∀ (c : Command) (s t t' : State) (r r' : Response), Returns c s t r → Returns c s t' r' → t = t' ∧ r = r'

/-- R252, R214: on a faulted instance every command but RESET and LOAD leaves everything but the queues as it
is, FR with it. -/
def Obligations.OnlyResetAndLoadLeaveAFault : Prop :=
  ∀ (c : Command) (s t : State) (r : Response), s.Faulted → Returns c s t r →
    (c = .reset ∨ (∃ text, c = .load text)) ∨ t = { s with inq := t.inq, outq := t.outq }

/-- R258: a command to one of several instances acts on it as on a single one, and leaves every other one as
it is. -/
def Obligations.InstancesShareNoState : Prop :=
  ∀ (fuel k : Nat) (c : Command) (ss ss' : List State) (r : Response),
    commandTo fuel k c ss = some (ss', r) →
    ss'.length = ss.length ∧ (∀ j, j ≠ k → ss'[j]? = ss[j]?) ∧
    ∃ s t, ss[k]? = some s ∧ command fuel c s = some (t, r) ∧ ss'[k]? = some t
end

