-- ==== Sys2Proof/Laws/Commands.lean ====
section
/-! SUPPORT. The run commands step by step: what a run with a budget left does on each response of its next
step, one lemma per response. -/

namespace Sys2Proof.Machine

/-! ### RUN_UNTIL_COMPLETE -/

@[simp] theorem runUntilComplete_zero (s : State) : runUntilComplete 0 s = (s, .budgetExhausted) := rfl

theorem runUntilComplete_continued {s : State} (h : (stepResponse s).2 = .continued) (n : Nat) :
    runUntilComplete (n + 1) s = runUntilComplete n (stepResponse s).1 := by
  rw [runUntilComplete, show stepResponse s = ((stepResponse s).1, .continued) from Prod.ext rfl h]

theorem runUntilComplete_halted {s : State} (h : (stepResponse s).2 = .halted) (n : Nat) :
    runUntilComplete (n + 1) s = ((stepResponse s).1, .complete (snapshotWords (stepResponse s).1)) := by
  rw [runUntilComplete, show stepResponse s = ((stepResponse s).1, .halted) from Prod.ext rfl h]

/-- Every other response ends the run and is its answer. -/
theorem runUntilComplete_result {s : State} {r : StepResult} (h : (stepResponse s).2 = r)
    (hc : r ≠ .continued) (hh : r ≠ .halted) (n : Nat) :
    runUntilComplete (n + 1) s = ((stepResponse s).1, .result r) := by
  rw [runUntilComplete, show stepResponse s = ((stepResponse s).1, r) from Prod.ext rfl h]
  cases r <;> simp_all

/-! ### RUN_UNTIL_OUTPUT -/

@[simp] theorem runUntilOutput_zero (s : State) : runUntilOutput 0 s = (s, .budgetExhausted) := rfl

theorem runUntilOutput_continued {s : State} (h : (stepResponse s).2 = .continued) (ho : nextIsOut s = false)
    (n : Nat) : runUntilOutput (n + 1) s = runUntilOutput n (stepResponse s).1 := by
  rw [runUntilOutput, show stepResponse s = ((stepResponse s).1, .continued) from Prod.ext rfl h]
  simp [ho]

theorem runUntilOutput_out {s : State} (h : (stepResponse s).2 = .continued) (ho : nextIsOut s = true)
    (n : Nat) : runUntilOutput (n + 1) s = outPopCommand (stepResponse s).1 := by
  rw [runUntilOutput, show stepResponse s = ((stepResponse s).1, .continued) from Prod.ext rfl h]
  simp [ho]

theorem runUntilOutput_halted {s : State} (h : (stepResponse s).2 = .halted) (n : Nat) :
    runUntilOutput (n + 1) s = ((stepResponse s).1, .noValue) := by
  rw [runUntilOutput, show stepResponse s = ((stepResponse s).1, .halted) from Prod.ext rfl h]

/-- Every other response ends the run and is its answer. -/
theorem runUntilOutput_result {s : State} {r : StepResult} (h : (stepResponse s).2 = r)
    (hc : r ≠ .continued) (hh : r ≠ .halted) (n : Nat) :
    runUntilOutput (n + 1) s = ((stepResponse s).1, .result r) := by
  rw [runUntilOutput, show stepResponse s = ((stepResponse s).1, r) from Prod.ext rfl h]
  cases r <;> simp_all

end Sys2Proof.Machine
end

