-- ==== Sys2Proof/Laws/Decode.lean ====
section
/-! SUPPORT. Decimal digits, mode numbers and the descriptor table: what the decoder and the encoder are made
of. -/

namespace Sys2Proof

/-- A bound on every listed digit is a bound on every digit. -/
theorem all_digitsUpTo (b : Nat) : ∀ (fuel n : Nat), n < 10 ^ fuel →
    ((digitsUpTo fuel n).all (· ≤ b) = true ↔ ∀ k, digit k n ≤ b) := by
  intro fuel
  induction fuel with
  | zero =>
    intro n h
    obtain rfl : n = 0 := by simpa using h
    simp [digitsUpTo, digit]
  | succ f ih =>
    intro n h
    by_cases h0 : n = 0
    · subst h0; simp [digitsUpTo, digit]
    · rw [digitsUpTo, if_neg h0, List.all_cons, Bool.and_eq_true, ih (n / 10) (by rw [pow_succ] at h; omega)]
      simp only [decide_eq_true_eq]
      constructor
      · rintro ⟨h1, h2⟩ k
        cases k with
        | zero => simpa [digit] using h1
        | succ k =>
          have := h2 k
          simp only [digit] at this ⊢
          rwa [pow_succ', ← Nat.div_div_eq_div_mul]
      · intro h
        refine ⟨by simpa [digit] using h 0, fun k => ?_⟩
        have := h (k + 1)
        simp only [digit] at this ⊢
        rwa [pow_succ', ← Nat.div_div_eq_div_mul] at this

/-- The digits `decimalDigits` lists are all of them: the digit check of R65 covers every position. -/
theorem all_decimalDigits (b n : Nat) : (decimalDigits n).all (· ≤ b) = true ↔ ∀ k, digit k n ≤ b := by
  apply all_digitsUpTo
  calc n < 2 ^ (n.log2 + 1) := Nat.lt_log2_self
    _ ≤ 10 ^ (n.log2 + 1) := Nat.pow_le_pow_left (by norm_num) _

theorem opcodeOfNat_number (op : Opcode) : opcodeOfNat op.number = some op := by cases op <;> rfl

theorem opcodeOfNat_eq_some {n : Nat} {op : Opcode} : opcodeOfNat n = some op ↔ op.number = n := by
  constructor
  · intro h
    unfold opcodeOfNat at h
    split at h <;> simp only [Option.some.injEq, reduceCtorEq] at h <;> subst h <;> rfl
  · rintro rfl; exact opcodeOfNat_number op

theorem opcode_number_lt (op : Opcode) : op.number < 100 := by cases op <;> decide

/-- Every stride of the table is the number of parameters plus one (R70). -/
theorem stride_eq_roles (op : Opcode) : op.stride = op.roles.length + 1 := by cases op <;> rfl

theorem mode_digit_le (m : Mode) : m.digit ≤ 2 := by cases m <;> decide

@[simp] theorem modeOfDigit_digit (m : Mode) : modeOfDigit m.digit = m := by cases m <;> rfl

/-- Digit `k` of a mode number is the mode digit of parameter `k`, and 0 beyond the last one. -/
theorem digit_modeNumber : ∀ (ps : List Param) (k : Nat),
    digit k (modeNumber ps) = (ps[k]?.map (·.mode.digit)).getD 0
  | [], k => by simp [modeNumber, digit]
  | p :: ps, 0 => by
    have := mode_digit_le p.mode
    simp [modeNumber, digit]
    omega
  | p :: ps, k + 1 => by
    have h := digit_modeNumber ps k
    have := mode_digit_le p.mode
    simp only [digit, modeNumber, pow_succ', ← Nat.div_div_eq_div_mul] at h ⊢
    rw [show (p.mode.digit + 10 * modeNumber ps) / 10 = modeNumber ps by omega, h]
    simp

theorem digit_modeNumber_le (ps : List Param) (k : Nat) : digit k (modeNumber ps) ≤ 2 := by
  rw [digit_modeNumber]
  rcases ps[k]? with _ | p
  · simp
  · simpa using mode_digit_le p.mode

/-- When an opcode word decodes, and to what (R63 to R65). -/
theorem decodeWord_eq_ok {w : Word} {op : Opcode} {M : Nat} :
    decodeWord w = .ok (op, M) ↔
      0 ≤ w ∧ op.number = w.toNat % 100 ∧ M = w.toNat / 100 ∧ ∀ k, digit k M ≤ 2 := by
  unfold decodeWord
  by_cases hw : w < 0
  · simp [hw]
  rw [if_neg hw]
  rcases hop : opcodeOfNat (w.toNat % 100) with _ | op'
  · simp only [reduceCtorEq, false_iff]
    rintro ⟨-, h, -⟩
    rw [← h, opcodeOfNat_number] at hop
    exact absurd hop (by simp)
  have hn := opcodeOfNat_eq_some.1 hop
  by_cases hd : (decimalDigits (w.toNat / 100)).all (· ≤ 2) = true
  · simp only [if_pos hd, Except.ok.injEq, Prod.mk.injEq]
    constructor
    · rintro ⟨rfl, rfl⟩
      exact ⟨not_lt.1 hw, hn, rfl, (all_decimalDigits 2 _).1 hd⟩
    · rintro ⟨-, h, rfl, -⟩
      refine ⟨?_, rfl⟩
      have h1 := opcodeOfNat_number op'
      rw [hn, ← h, opcodeOfNat_number] at h1
      exact (Option.some.inj h1).symm
  · simp only [if_neg hd, reduceCtorEq, false_iff]
    rintro ⟨-, -, rfl, h⟩
    exact hd ((all_decimalDigits 2 _).2 h)

end Sys2Proof
end

