-- ==== Sys2Proof/Laws/Memory.lean ====
section
/-! SUPPORT. Memory: every operation keeps the canonical form; a read after a write gives the Word written
there and leaves every other address alone. -/

namespace Sys2Proof.Machine

@[simp] theorem Memory.read_nil (a : Nat) : Memory.read [] a = 0 := rfl

@[simp] theorem Memory.read_cons (b : Nat) (w : Word) (m : Memory) (a : Nat) :
    Memory.read ((b, w) :: m) a = if b = a then w else Memory.read m a := rfl

theorem Memory.read_erase (m : Memory) (a x : Nat) :
    (m.erase a).read x = if x = a then 0 else m.read x := by
  induction m with
  | nil => simp [Memory.erase]
  | cons e m ih =>
    obtain ⟨b, w⟩ := e
    by_cases hb : b = a
    · subst hb
      rw [Memory.erase, if_pos rfl, ih]
      by_cases hx : x = b
      · simp [hx]
      · simp [hx, Ne.symm hx]
    · rw [Memory.erase, if_neg hb, Memory.read_cons, ih]
      by_cases hx : x = a
      · subst hx; simp [hb]
      · simp [hx]

theorem Memory.read_insert (m : Memory) (a : Nat) (v : Word) (x : Nat) (h : m.read a = 0 ∨ x ≠ a)
    (hm : ∀ e ∈ m, e.1 ≠ a) : (m.insert a v).read x = if x = a then v else m.read x := by
  induction m with
  | nil =>
    by_cases hx : x = a
    · simp [Memory.insert, hx]
    · simp [Memory.insert, hx, Ne.symm hx]
  | cons e m ih =>
    obtain ⟨b, w⟩ := e
    have hba : b ≠ a := hm (b, w) (by simp)
    have hm' : ∀ e ∈ m, e.1 ≠ a := fun e he => hm e (by simp [he])
    by_cases hlt : a < b
    · by_cases hx : x = a
      · simp [Memory.insert, hlt, hx]
      · simp [Memory.insert, hlt, hx, Ne.symm hx]
    · have h' : Memory.read m a = 0 ∨ x ≠ a := by
        rcases h with h | h
        · left; simpa [hba] using h
        · exact .inr h
      rw [Memory.insert, if_neg hlt, Memory.read_cons, ih h' hm', Memory.read_cons]
      by_cases hx : x = a
      · subst hx; simp [hba]
      · simp [hx]

theorem Memory.mem_erase {m : Memory} {a : Nat} {e : Cell} : e ∈ m.erase a ↔ e ∈ m ∧ e.1 ≠ a := by
  induction m with
  | nil => simp [Memory.erase]
  | cons f m ih =>
    obtain ⟨b, w⟩ := f
    by_cases hb : b = a
    · rw [Memory.erase, if_pos hb, ih]
      constructor
      · rintro ⟨h, h'⟩; exact ⟨by simp [h], h'⟩
      · rintro ⟨h, h'⟩
        rcases List.mem_cons.1 h with rfl | h
        · exact absurd hb h'
        · exact ⟨h, h'⟩
    · rw [Memory.erase, if_neg hb, List.mem_cons, ih, List.mem_cons]
      constructor
      · rintro (rfl | ⟨h, h'⟩)
        · exact ⟨.inl rfl, hb⟩
        · exact ⟨.inr h, h'⟩
      · rintro ⟨rfl | h, h'⟩
        · exact .inl rfl
        · exact .inr ⟨h, h'⟩

theorem Memory.mem_insert {m : Memory} {a : Nat} {v : Word} {e : Cell} :
    e ∈ m.insert a v ↔ e = (a, v) ∨ e ∈ m := by
  induction m with
  | nil => simp [Memory.insert]
  | cons f m ih =>
    obtain ⟨b, w⟩ := f
    by_cases hlt : a < b
    · simp [Memory.insert, hlt]
    · rw [Memory.insert, if_neg hlt, List.mem_cons, ih, List.mem_cons]
      tauto

/-- A read after a write: the Word written at its address, and the old Word everywhere else. -/
theorem Memory.read_write (m : Memory) (a : Nat) (v : Word) (x : Nat) :
    (m.write a v).read x = if x = a then v else m.read x := by
  unfold Memory.write
  split
  · rename_i hv
    rw [Memory.read_erase, hv]
  · rw [Memory.read_insert _ _ _ _ (.inl (by simp [Memory.read_erase]))
      (fun e he => (Memory.mem_erase.1 he).2), Memory.read_erase]
    by_cases hx : x = a <;> simp [hx]

/-- The cells a write leaves are old ones or the one written. -/
theorem Memory.mem_write {m : Memory} {a : Nat} {v : Word} {e : Cell} (h : e ∈ m.write a v) :
    e = (a, v) ∨ e ∈ m := by
  unfold Memory.write at h
  split at h
  · exact .inr (Memory.mem_erase.1 h).1
  · rcases Memory.mem_insert.1 h with h | h
    · exact .inl h
    · exact .inr (Memory.mem_erase.1 h).1

@[simp] theorem Memory.wf_nil : Memory.wf [] = true := rfl

theorem Memory.wf_cons (a : Nat) (v : Word) (m : Memory) :
    Memory.wf ((a, v) :: m) = true ↔ v ≠ 0 ∧ (∀ e ∈ m, a < e.1) ∧ m.wf = true := by
  simp [Memory.wf, and_assoc]

theorem Memory.wf_erase {m : Memory} (h : m.wf = true) (a : Nat) : (m.erase a).wf = true := by
  induction m with
  | nil => rfl
  | cons e m ih =>
    obtain ⟨b, w⟩ := e
    obtain ⟨hw, hlt, hm⟩ := (Memory.wf_cons _ _ _).1 h
    by_cases hb : b = a
    · rw [Memory.erase, if_pos hb]; exact ih hm
    · rw [Memory.erase, if_neg hb, Memory.wf_cons]
      exact ⟨hw, fun e he => hlt e (Memory.mem_erase.1 he).1, ih hm⟩

theorem Memory.wf_insert {m : Memory} (h : m.wf = true) {a : Nat} {v : Word} (hv : v ≠ 0)
    (hm : ∀ e ∈ m, e.1 ≠ a) : (m.insert a v).wf = true := by
  induction m with
  | nil => simp [Memory.insert, Memory.wf, hv]
  | cons e m ih =>
    obtain ⟨b, w⟩ := e
    obtain ⟨hw, hlt, hm'⟩ := (Memory.wf_cons _ _ _).1 h
    have hba : b ≠ a := hm (b, w) (by simp)
    by_cases hab : a < b
    · rw [Memory.insert, if_pos hab, Memory.wf_cons]
      refine ⟨hv, fun e he => ?_, h⟩
      rcases List.mem_cons.1 he with rfl | he
      · exact hab
      · exact hab.trans (hlt e he)
    · rw [Memory.insert, if_neg hab, Memory.wf_cons]
      refine ⟨hw, fun e he => ?_, ih hm' fun e he => hm e (by simp [he])⟩
      rcases Memory.mem_insert.1 he with rfl | he
      · change b < a; omega
      · exact hlt e he

/-- A write keeps the canonical form. -/
theorem Memory.wf_write {m : Memory} (h : m.wf = true) (a : Nat) (v : Word) : (m.write a v).wf = true := by
  unfold Memory.write
  split
  · exact Memory.wf_erase h a
  · exact Memory.wf_insert (Memory.wf_erase h a) ‹_› fun e he => (Memory.mem_erase.1 he).2

/-- The cells of a memory made of Words: a nonzero Word of the list, at its place. -/
theorem Memory.mem_ofWords {a : Nat} {ws : List Word} {e : Cell} (h : e ∈ Memory.ofWords a ws) :
    a ≤ e.1 ∧ e.1 < a + ws.length ∧ e.2 ∈ ws := by
  induction ws generalizing a with
  | nil => simp [Memory.ofWords] at h
  | cons v vs ih =>
    have tail : e ∈ Memory.ofWords (a + 1) vs → a ≤ e.1 ∧ e.1 < a + (v :: vs).length ∧ e.2 ∈ v :: vs := by
      intro h
      obtain ⟨h1, h2, h3⟩ := ih h
      exact ⟨by omega, by simp; omega, by simp [h3]⟩
    by_cases hv : v = 0
    · rw [Memory.ofWords, if_pos hv] at h; exact tail h
    · rw [Memory.ofWords, if_neg hv] at h
      rcases List.mem_cons.1 h with rfl | h
      · simp
      · exact tail h

theorem Memory.wf_ofWords (a : Nat) (ws : List Word) : (Memory.ofWords a ws).wf = true := by
  induction ws generalizing a with
  | nil => rfl
  | cons v vs ih =>
    by_cases hv : v = 0
    · rw [Memory.ofWords, if_pos hv]; exact ih _
    · rw [Memory.ofWords, if_neg hv, Memory.wf_cons]
      exact ⟨hv, fun e he => by have := (Memory.mem_ofWords he).1; omega, ih _⟩

/-- An address below the base of a memory made of Words reads 0. -/
theorem Memory.read_eq_zero {m : Memory} {x : Nat} (h : ∀ e ∈ m, e.1 ≠ x) : m.read x = 0 := by
  induction m with
  | nil => rfl
  | cons e m ih =>
    obtain ⟨b, w⟩ := e
    have hb : b ≠ x := h (b, w) (by simp)
    simp [hb, ih fun e he => h e (by simp [he])]

/-- The Word a listed address reads as is listed. -/
theorem Memory.read_mem {m : Memory} {x : Nat} (h : m.read x ≠ 0) : (x, m.read x) ∈ m := by
  induction m with
  | nil => simp at h
  | cons e m ih =>
    obtain ⟨b, w⟩ := e
    by_cases hb : b = x
    · subst hb; simp
    · simp only [Memory.read_cons, if_neg hb] at h ⊢
      exact List.mem_cons_of_mem _ (ih h)

/-- Every memory operation keeps the canonical form, and the memory at reset has it. -/
theorem Memory.wf_reset : State.reset.mem.wf = true := rfl

end Sys2Proof.Machine
end

