-- ==== Sys2Proof/Laws/State.lean ====
section
/-! SUPPORT. What each named update of the state does to each field: one lemma per field per update. -/

namespace Sys2Proof.Machine

/-! ### memWrite -/

@[simp] theorem memWrite_cfg (s : State) (a : Nat) (v : Word) : (memWrite s a v).cfg = s.cfg := rfl
@[simp] theorem memWrite_mem (s : State) (a : Nat) (v : Word) : (memWrite s a v).mem = s.mem.write a v := rfl
@[simp] theorem memWrite_extent (s : State) (a : Nat) (v : Word) : (memWrite s a v).extent = if s.extent ≤ a then a + 1 else s.extent := rfl
@[simp] theorem memWrite_program (s : State) (a : Nat) (v : Word) : (memWrite s a v).program = s.program := rfl
@[simp] theorem memWrite_ip (s : State) (a : Nat) (v : Word) : (memWrite s a v).ip = s.ip := rfl
@[simp] theorem memWrite_rb (s : State) (a : Nat) (v : Word) : (memWrite s a v).rb = s.rb := rfl
@[simp] theorem memWrite_halted (s : State) (a : Nat) (v : Word) : (memWrite s a v).halted = s.halted := rfl
@[simp] theorem memWrite_fr (s : State) (a : Nat) (v : Word) : (memWrite s a v).fr = s.fr := rfl
@[simp] theorem memWrite_inq (s : State) (a : Nat) (v : Word) : (memWrite s a v).inq = s.inq := rfl
@[simp] theorem memWrite_outq (s : State) (a : Nat) (v : Word) : (memWrite s a v).outq = s.outq := rfl

/-! ### takeFault -/

@[simp] theorem takeFault_cfg (k : FaultKind) (s : State) : (takeFault k s).cfg = s.cfg := rfl
@[simp] theorem takeFault_mem (k : FaultKind) (s : State) : (takeFault k s).mem = s.mem := rfl
@[simp] theorem takeFault_extent (k : FaultKind) (s : State) : (takeFault k s).extent = s.extent := rfl
@[simp] theorem takeFault_program (k : FaultKind) (s : State) : (takeFault k s).program = s.program := rfl
@[simp] theorem takeFault_ip (k : FaultKind) (s : State) : (takeFault k s).ip = s.ip := rfl
@[simp] theorem takeFault_rb (k : FaultKind) (s : State) : (takeFault k s).rb = s.rb := rfl
@[simp] theorem takeFault_halted (k : FaultKind) (s : State) : (takeFault k s).halted = s.halted := rfl
@[simp] theorem takeFault_fr (k : FaultKind) (s : State) : (takeFault k s).fr = some { kind := k, ip := s.ip } := rfl
@[simp] theorem takeFault_inq (k : FaultKind) (s : State) : (takeFault k s).inq = s.inq := rfl
@[simp] theorem takeFault_outq (k : FaultKind) (s : State) : (takeFault k s).outq = s.outq := rfl

/-! ### resetState -/

@[simp] theorem resetState_cfg (s : State) : (resetState s).cfg = s.cfg := rfl
@[simp] theorem resetState_mem (s : State) : (resetState s).mem = Memory.ofWords 0 s.program := rfl
@[simp] theorem resetState_extent (s : State) : (resetState s).extent = s.program.length := rfl
@[simp] theorem resetState_program (s : State) : (resetState s).program = s.program := rfl
@[simp] theorem resetState_ip (s : State) : (resetState s).ip = 0 := rfl
@[simp] theorem resetState_rb (s : State) : (resetState s).rb = 0 := rfl
@[simp] theorem resetState_halted (s : State) : (resetState s).halted = false := rfl
@[simp] theorem resetState_fr (s : State) : (resetState s).fr = none := rfl
@[simp] theorem resetState_inq (s : State) : (resetState s).inq = s.inq := rfl
@[simp] theorem resetState_outq (s : State) : (resetState s).outq = s.outq := rfl

/-! ### applyStore and applyEffects -/

@[simp] theorem applyStore_none (s : State) : applyStore s none = s := rfl
@[simp] theorem applyStore_some (s : State) (a : Nat) (v : Word) : applyStore s (some (a, v)) = memWrite s a v := rfl

@[simp] theorem applyStore_cfg (s : State) (w : Option (Nat × Word)) : (applyStore s w).cfg = s.cfg := by
  rcases w with _ | ⟨a, v⟩ <;> rfl
@[simp] theorem applyStore_program (s : State) (w : Option (Nat × Word)) : (applyStore s w).program = s.program := by
  rcases w with _ | ⟨a, v⟩ <;> rfl
@[simp] theorem applyStore_ip (s : State) (w : Option (Nat × Word)) : (applyStore s w).ip = s.ip := by
  rcases w with _ | ⟨a, v⟩ <;> rfl
@[simp] theorem applyStore_rb (s : State) (w : Option (Nat × Word)) : (applyStore s w).rb = s.rb := by
  rcases w with _ | ⟨a, v⟩ <;> rfl
@[simp] theorem applyStore_halted (s : State) (w : Option (Nat × Word)) : (applyStore s w).halted = s.halted := by
  rcases w with _ | ⟨a, v⟩ <;> rfl
@[simp] theorem applyStore_fr (s : State) (w : Option (Nat × Word)) : (applyStore s w).fr = s.fr := by
  rcases w with _ | ⟨a, v⟩ <;> rfl
@[simp] theorem applyStore_inq (s : State) (w : Option (Nat × Word)) : (applyStore s w).inq = s.inq := by
  rcases w with _ | ⟨a, v⟩ <;> rfl
@[simp] theorem applyStore_outq (s : State) (w : Option (Nat × Word)) : (applyStore s w).outq = s.outq := by
  rcases w with _ | ⟨a, v⟩ <;> rfl

@[simp] theorem applyEffects_cfg (e : Effects) (s : State) : (applyEffects e s).cfg = s.cfg := by
  simp [applyEffects]
@[simp] theorem applyEffects_mem (e : Effects) (s : State) : (applyEffects e s).mem = (applyStore s e.store).mem := by
  simp [applyEffects]
@[simp] theorem applyEffects_extent (e : Effects) (s : State) : (applyEffects e s).extent = (applyStore s e.store).extent := by
  simp [applyEffects]
@[simp] theorem applyEffects_program (e : Effects) (s : State) : (applyEffects e s).program = s.program := by
  simp [applyEffects]
@[simp] theorem applyEffects_ip (e : Effects) (s : State) : (applyEffects e s).ip = s.ip := by
  simp [applyEffects]
@[simp] theorem applyEffects_rb (e : Effects) (s : State) : (applyEffects e s).rb = e.newRb.getD s.rb := by
  simp [applyEffects]
@[simp] theorem applyEffects_halted (e : Effects) (s : State) : (applyEffects e s).halted = s.halted := by
  simp [applyEffects]
@[simp] theorem applyEffects_fr (e : Effects) (s : State) : (applyEffects e s).fr = s.fr := by
  simp [applyEffects]
@[simp] theorem applyEffects_inq (e : Effects) (s : State) : (applyEffects e s).inq = if e.popsInput then s.inq.tail else s.inq := by
  simp [applyEffects]
@[simp] theorem applyEffects_outq (e : Effects) (s : State) : (applyEffects e s).outq = s.outq ++ e.push.toList := by
  simp [applyEffects]

@[simp] theorem faulted_fst (k : FaultKind) (s : State) : (faulted k s).1 = takeFault k s := rfl
@[simp] theorem faulted_snd (k : FaultKind) (s : State) : (faulted k s).2 = .fault k s.ip := rfl

end Sys2Proof.Machine
end

