-- ==== Sys2Proof/Laws/Ops.lean ====
section
/-! SUPPORT. What each shared operation can do, said once: the checks, the resolution of parameters, the
commit, and the meanings as commits. -/

namespace Sys2Proof.Machine

/-- What a check of a write address can answer. -/
theorem checkWriteAddr_cases (c : Config) (d : Int) :
    (d < 0 ∧ checkWriteAddr c d = .error .invalidAddress) ∨
    (0 ≤ d ∧ c.atCap d = true ∧ checkWriteAddr c d = .error .capacityExceeded) ∨
    (0 ≤ d ∧ c.atCap d = false ∧ checkWriteAddr c d = .ok d.toNat) := by
  unfold checkWriteAddr
  by_cases h : d < 0
  · simp [h]
  · cases hc : c.atCap d <;> simp [h, Int.not_lt.1 h]

@[simp] theorem withArg_ok {α : Type} (a : α) (act : α → ActOutcome) : withArg (.ok a) act = act a := rfl

@[simp] theorem withArg_error {α : Type} (k : FaultKind) (act : α → ActOutcome) :
    withArg (.error k) act = .raise k := rfl

/-- What a Read-role parameter can resolve to (R67, R68). -/
theorem readParam_cases (p : Param) (s : State) :
    (p.mode = .immediate ∧ readParam p s = .ok p.raw) ∨
    (p.mode ≠ .immediate ∧ effectiveAddress p s < 0 ∧ readParam p s = .error .invalidAddress) ∨
    (p.mode ≠ .immediate ∧ 0 ≤ effectiveAddress p s ∧
      readParam p s = .ok (memRead s (effectiveAddress p s).toNat)) := by
  obtain ⟨m, r⟩ := p
  cases m
  case immediate => exact .inl ⟨rfl, rfl⟩
  all_goals
    simp only [readParam, loadWord]
    split
    · exact .inr (.inl ⟨by simp, ‹_›, rfl⟩)
    · exact .inr (.inr ⟨by simp, by omega, rfl⟩)

/-- What a Write-role parameter can resolve to (R67, R68). -/
theorem writeParam_cases (p : Param) (s : State) :
    (p.mode = .immediate ∧ writeParam p s = .error .invalidParameterMode) ∨
    (p.mode ≠ .immediate ∧ writeParam p s = .ok (effectiveAddress p s)) := by
  obtain ⟨m, r⟩ := p
  cases m <;> simp [writeParam]

/-- What a store at commit can be: a refused address, or the write with the other effects. -/
theorem storeAt_cases (s : State) (d : Int) (v : Word) (e : Effects) :
    (∃ k, storeAt s d v e = .raise k) ∨
    (0 ≤ d ∧ s.cfg.atCap d = false ∧ storeAt s d v e = .advance { e with store := some (d.toNat, v) }) := by
  rcases checkWriteAddr_cases s.cfg d with ⟨-, h⟩ | ⟨-, -, h⟩ | ⟨hd, hc, h⟩
  · exact .inl ⟨_, by rw [storeAt, h, withArg_error]⟩
  · exact .inl ⟨_, by rw [storeAt, h, withArg_error]⟩
  · exact .inr ⟨hd, hc, by rw [storeAt, h, withArg_ok]⟩

/-- What a commit can do (R75): take a fault, apply effects and move IP, halt, or hold. -/
theorem commit_cases (n : Nat) (o : ActOutcome) (s : State) :
    (∃ k, commit n o s = faulted k s) ∨
    (∃ e, o = .advance e ∧ s.cfg.aboveMax (s.ip + n) = false ∧
      commit n o s = ({ applyEffects e s with ip := s.ip + n }, .continued)) ∨
    (∃ t e, o = .jumpTo t e ∧ commit n o s = ({ applyEffects e s with ip := t }, .continued)) ∨
    (o = .halt ∧ commit n o s = ({ s with halted := true }, .halted)) ∨
    (∃ h, o = .hold h ∧ commit n o s = (s, h.result)) := by
  cases o with
  | advance e =>
    simp only [commit]
    split
    · exact .inl ⟨_, rfl⟩
    · rename_i h; exact .inr (.inl ⟨e, rfl, by simpa using h, rfl⟩)
  | jumpTo t e => exact .inr (.inr (.inl ⟨t, e, rfl, rfl⟩))
  | halt => exact .inr (.inr (.inr (.inl ⟨rfl, rfl⟩)))
  | hold h => exact .inr (.inr (.inr (.inr ⟨h, rfl, rfl⟩)))
  | raise k => exact .inl ⟨k, rfl⟩

/-- Every meaning commits the outcome of its instruction with the stride of its row. -/
theorem exec_eq_commit (i : Instr) (s : State) :
    exec i s = .next (commit i.opcode.stride (outcomeOf i s) s).1 := by
  cases i <;> rfl

/-- A store by an instruction of format F3RRW: a fault, or one store of `v` at the Write-role address, where
`v` is a Word the action checked, or the 0 or 1 of a comparison. -/
def StoresOrRaises (p2 : Param) (s : State) (o : ActOutcome) : Prop :=
  (∃ k, o = .raise k) ∨
  ∃ (d : Int) (v : Word), writeParam p2 s = .ok d ∧ 0 ≤ d ∧ s.cfg.atCap d = false ∧
    (s.cfg.inWord v = true ∨ v = 0 ∨ v = 1) ∧ o = .advance { store := some (d.toNat, v) }

theorem withReadReadWrite_stores {p0 p1 p2 : Param} {s : State} {act : Word → Word → Int → ActOutcome}
    (h : ∀ a b d, (∃ k, act a b d = .raise k) ∨ (0 ≤ d ∧ s.cfg.atCap d = false ∧
      ∃ v : Word, (s.cfg.inWord v = true ∨ v = 0 ∨ v = 1) ∧
        act a b d = .advance { store := some (d.toNat, v) })) :
    StoresOrRaises p2 s (withReadReadWrite p0 p1 p2 s act) := by
  unfold withReadReadWrite
  rcases readParam p0 s with k | a
  · exact .inl ⟨k, rfl⟩
  rcases readParam p1 s with k | b
  · exact .inl ⟨k, rfl⟩
  rcases hd : writeParam p2 s with k | d
  · exact .inl ⟨k, rfl⟩
  rcases h a b d with ⟨k, h⟩ | ⟨h0, hc, v, hv, h⟩
  · exact .inl ⟨k, h⟩
  · exact .inr ⟨d, v, hd, h0, hc, hv, h⟩

theorem storeExact_cases (s : State) (v d : Int) :
    (∃ k, storeExact s v d = .raise k) ∨ (0 ≤ d ∧ s.cfg.atCap d = false ∧
      ∃ w : Word, (s.cfg.inWord w = true ∨ w = 0 ∨ w = 1) ∧
        storeExact s v d = .advance { store := some (d.toNat, w) }) := by
  unfold storeExact
  split
  · rename_i hv
    rcases storeAt_cases s d v {} with h | ⟨h0, hc, h⟩
    · exact .inl h
    · exact .inr ⟨h0, hc, v, .inl hv, h⟩
  · exact .inl ⟨_, rfl⟩

theorem storeTruth_cases (s : State) (b : Bool) (d : Int) :
    (∃ k, storeAt s d (truthWord b) {} = .raise k) ∨ (0 ≤ d ∧ s.cfg.atCap d = false ∧
      ∃ w : Word, (s.cfg.inWord w = true ∨ w = 0 ∨ w = 1) ∧
        storeAt s d (truthWord b) {} = .advance { store := some (d.toNat, w) }) := by
  rcases storeAt_cases s d (truthWord b) {} with h | ⟨h0, hc, h⟩
  · exact .inl h
  · exact .inr ⟨h0, hc, truthWord b, by cases b <;> simp [truthWord], h⟩

/-- The outcome of every instruction, by the shape of its effects: what `commit` may be asked to apply. -/
theorem outcomeOf_cases (i : Instr) (s : State) :
    (∃ k, outcomeOf i s = .raise k) ∨
    (∃ p0 p1 p2 d v, (i = .add p0 p1 p2 ∨ i = .mul p0 p1 p2 ∨ i = .lt p0 p1 p2 ∨ i = .eq p0 p1 p2) ∧
      writeParam p2 s = .ok d ∧ 0 ≤ d ∧ s.cfg.atCap d = false ∧ (s.cfg.inWord v = true ∨ v = 0 ∨ v = 1) ∧
      outcomeOf i s = .advance { store := some (d.toNat, v) }) ∨
    (∃ p d v q, i = .inp p ∧ s.inq = v :: q ∧ writeParam p s = .ok d ∧ 0 ≤ d ∧ s.cfg.atCap d = false ∧
      outcomeOf i s = .advance { store := some (d.toNat, v), popsInput := true }) ∨
    (∃ p, i = .inp p ∧ s.inq = [] ∧ outcomeOf i s = .hold .awaitInput) ∨
    (∃ p v, i = .out p ∧ readParam p s = .ok v ∧ outputFull s = false ∧
      outcomeOf i s = .advance { push := some v }) ∨
    (∃ p, i = .out p ∧ outputFull s = true ∧ outcomeOf i s = .hold .awaitOutputSpace) ∨
    (∃ p0 p1 t, (i = .jnz p0 p1 ∨ i = .jz p0 p1) ∧ readParam p1 s = .ok t ∧
      (outcomeOf i s = .jumpTo t {} ∨ outcomeOf i s = .advance {})) ∨
    (∃ p v, i = .arb p ∧ readParam p s = .ok v ∧ s.cfg.inWord (s.rb + v) = true ∧
      outcomeOf i s = .advance { newRb := some (s.rb + v) }) ∨
    (i = .halt ∧ outcomeOf i s = .halt) := by
  cases i with
  | add p0 p1 p2 =>
    rcases withReadReadWrite_stores (p0 := p0) (p1 := p1) (p2 := p2) (act := actAdd s)
      (fun a b d => storeExact_cases s (a + b) d) with h | ⟨d, v, h⟩
    · exact .inl h
    · exact .inr (.inl ⟨p0, p1, p2, d, v, .inl rfl, h⟩)
  | mul p0 p1 p2 =>
    rcases withReadReadWrite_stores (p0 := p0) (p1 := p1) (p2 := p2) (act := actMul s)
      (fun a b d => storeExact_cases s (a * b) d) with h | ⟨d, v, h⟩
    · exact .inl h
    · exact .inr (.inl ⟨p0, p1, p2, d, v, .inr (.inl rfl), h⟩)
  | lt p0 p1 p2 =>
    rcases withReadReadWrite_stores (p0 := p0) (p1 := p1) (p2 := p2) (act := actLt s)
      (fun a b d => storeTruth_cases s _ d) with h | ⟨d, v, h⟩
    · exact .inl h
    · exact .inr (.inl ⟨p0, p1, p2, d, v, .inr (.inr (.inl rfl)), h⟩)
  | eq p0 p1 p2 =>
    rcases withReadReadWrite_stores (p0 := p0) (p1 := p1) (p2 := p2) (act := actEq s)
      (fun a b d => storeTruth_cases s _ d) with h | ⟨d, v, h⟩
    · exact .inl h
    · exact .inr (.inl ⟨p0, p1, p2, d, v, .inr (.inr (.inr rfl)), h⟩)
  | inp p =>
    simp only [outcomeOf, outcomeIn]
    rcases hd : writeParam p s with k | d
    · exact .inl ⟨k, rfl⟩
    rw [withArg_ok]
    unfold actIn
    rcases hq : s.inq with _ | ⟨v, q⟩
    · exact .inr (.inr (.inr (.inl ⟨p, rfl, rfl, rfl⟩)))
    · rcases storeAt_cases s d v { popsInput := true } with h | ⟨h0, hc, h⟩
      · exact .inl h
      · exact .inr (.inr (.inl ⟨p, d, v, q, rfl, rfl, hd, h0, hc, h⟩))
  | out p =>
    simp only [outcomeOf, outcomeOut]
    rcases hv : readParam p s with k | v
    · exact .inl ⟨k, rfl⟩
    rw [withArg_ok]
    unfold actOut
    cases hf : outputFull s
    · exact .inr (.inr (.inr (.inr (.inl ⟨p, v, rfl, hv, rfl, by simp⟩))))
    · exact .inr (.inr (.inr (.inr (.inr (.inl ⟨p, rfl, rfl, by simp⟩)))))
  | jnz p0 p1 =>
    simp only [outcomeOf, outcomeJnz, withReadRead]
    rcases readParam p0 s with k | c
    · exact .inl ⟨k, rfl⟩
    rcases ht : readParam p1 s with k | t
    · exact .inl ⟨k, rfl⟩
    refine .inr (.inr (.inr (.inr (.inr (.inr (.inl ⟨p0, p1, t, .inl rfl, ht, ?_⟩))))))
    simp only [withArg_ok, actJnz, jumpIf]
    split <;> simp
  | jz p0 p1 =>
    simp only [outcomeOf, outcomeJz, withReadRead]
    rcases readParam p0 s with k | c
    · exact .inl ⟨k, rfl⟩
    rcases ht : readParam p1 s with k | t
    · exact .inl ⟨k, rfl⟩
    refine .inr (.inr (.inr (.inr (.inr (.inr (.inl ⟨p0, p1, t, .inr rfl, ht, ?_⟩))))))
    simp only [withArg_ok, actJz, jumpIf]
    split <;> simp
  | arb p =>
    simp only [outcomeOf, outcomeArb]
    rcases hv : readParam p s with k | v
    · exact .inl ⟨k, rfl⟩
    rw [withArg_ok]
    unfold actArb
    split
    · rename_i h
      exact .inr (.inr (.inr (.inr (.inr (.inr (.inr (.inl ⟨p, v, rfl, hv, h, rfl⟩)))))))
    · exact .inl ⟨_, rfl⟩
  | halt => exact .inr (.inr (.inr (.inr (.inr (.inr (.inr (.inr ⟨rfl, rfl⟩)))))))

/-- What a step can do, with its response (R78): report the recorded fault, raise AlreadyHalted, raise a fetch
or decode fault, or commit the decoded instruction. -/
theorem stepResponse_cases (s : State) :
    (∃ r, s.fr = some r ∧ stepResponse s = (s, .fault r.kind r.ip)) ∨
    (s.fr = none ∧ s.halted = true ∧ stepResponse s = faulted .alreadyHalted s) ∨
    (∃ k, s.fr = none ∧ s.halted = false ∧ fetchInstr s = .error k ∧ stepResponse s = faulted k s) ∨
    (∃ i, s.fr = none ∧ s.halted = false ∧ fetchInstr s = .ok i ∧
      stepResponse s = commit i.opcode.stride (outcomeOf i s) s) := by
  unfold stepResponse
  rcases hf : s.fr with _ | r
  · cases hh : s.halted
    · rcases hi : fetchInstr s with k | i
      · exact .inr (.inr (.inl ⟨k, rfl, rfl, rfl, by simp⟩))
      · exact .inr (.inr (.inr ⟨i, rfl, rfl, rfl, by simp⟩))
    · exact .inr (.inl ⟨rfl, rfl, by simp⟩)
  · exact .inl ⟨r, rfl, rfl⟩

end Sys2Proof.Machine
end

