-- ==== Sys2Proof/Laws/Exec.lean ====
section
/-! SUPPORT. What executing an instruction can do, said once: every next state, with the response of the step,
is one of the ten shapes below. -/

namespace Sys2Proof.Machine

/-- The states and responses an instruction's commit can give (R73 to R75), each with what it rests on. -/
inductive Committed (i : Instr) (s : State) : State → StepResult → Prop where
  /-- A fault of the resolution, of the action or of the advance. -/
  | fault (k : FaultKind) : Committed i s (takeFault k s) (.fault k s.ip)
  /-- ADD, MUL, LT and EQ: one Word stored, IP advanced. -/
  | store (p0 p1 p2 : Param) (d : Int) (v : Word)
      (hi : i = .add p0 p1 p2 ∨ i = .mul p0 p1 p2 ∨ i = .lt p0 p1 p2 ∨ i = .eq p0 p1 p2)
      (hw : writeParam p2 s = .ok d) (h0 : 0 ≤ d) (hc : s.cfg.atCap d = false)
      (hv : s.cfg.inWord v = true ∨ v = 0 ∨ v = 1)
      (hip : s.cfg.aboveMax (s.ip + i.opcode.stride) = false) :
      Committed i s { memWrite s d.toNat v with ip := s.ip + i.opcode.stride } .continued
  /-- IN: the head of INQ stored, IP advanced. -/
  | input (p : Param) (d : Int) (v : Word) (q : List Word) (hi : i = .inp p) (hq : s.inq = v :: q)
      (hw : writeParam p s = .ok d) (h0 : 0 ≤ d) (hc : s.cfg.atCap d = false)
      (hip : s.cfg.aboveMax (s.ip + i.opcode.stride) = false) :
      Committed i s { memWrite s d.toNat v with ip := s.ip + i.opcode.stride, inq := q } .continued
  /-- IN holds. -/
  | inputHold (p : Param) (hi : i = .inp p) (hq : s.inq = []) : Committed i s s .awaitInput
  /-- OUT: one Word pushed, IP advanced. -/
  | output (p : Param) (v : Word) (hi : i = .out p) (hr : readParam p s = .ok v) (hf : outputFull s = false)
      (hip : s.cfg.aboveMax (s.ip + i.opcode.stride) = false) :
      Committed i s { s with outq := s.outq ++ [v], ip := s.ip + i.opcode.stride } .continued
  /-- OUT holds. -/
  | outputHold (p : Param) (hi : i = .out p) (hf : outputFull s = true) : Committed i s s .awaitOutputSpace
  /-- A taken jump. -/
  | jump (p0 p1 : Param) (t : Word) (hi : i = .jnz p0 p1 ∨ i = .jz p0 p1) (hr : readParam p1 s = .ok t) :
      Committed i s { s with ip := t } .continued
  /-- An untaken jump. -/
  | noJump (p0 p1 : Param) (hi : i = .jnz p0 p1 ∨ i = .jz p0 p1)
      (hip : s.cfg.aboveMax (s.ip + i.opcode.stride) = false) :
      Committed i s { s with ip := s.ip + i.opcode.stride } .continued
  /-- ARB: RB moved, IP advanced. -/
  | base (p : Param) (v : Word) (hi : i = .arb p) (hr : readParam p s = .ok v)
      (hw : s.cfg.inWord (s.rb + v) = true) (hip : s.cfg.aboveMax (s.ip + i.opcode.stride) = false) :
      Committed i s { s with rb := s.rb + v, ip := s.ip + i.opcode.stride } .continued
  /-- HALT. -/
  | halt (hi : i = .halt) : Committed i s { s with halted := true } .halted

/-- Every commit of an instruction's outcome has one of the shapes. -/
theorem committed (i : Instr) (s : State) :
    Committed i s (commit i.opcode.stride (outcomeOf i s) s).1 (commit i.opcode.stride (outcomeOf i s) s).2 := by
  have adv : ∀ e, outcomeOf i s = .advance e →
      (s.cfg.aboveMax (s.ip + i.opcode.stride) = false →
        Committed i s { applyEffects e s with ip := s.ip + i.opcode.stride } .continued) →
      Committed i s (commit i.opcode.stride (outcomeOf i s) s).1
        (commit i.opcode.stride (outcomeOf i s) s).2 := by
    intro e he h
    rw [he]
    simp only [commit]
    split
    · exact .fault _
    · rename_i hh
      exact h (by simpa using hh)
  rcases outcomeOf_cases i s with ⟨k, h⟩ | ⟨p0, p1, p2, d, v, hi, hw, h0, hc, hv, h⟩ |
    ⟨p, d, v, q, hi, hq, hw, h0, hc, h⟩ | ⟨p, hi, hq, h⟩ | ⟨p, v, hi, hr, hf, h⟩ | ⟨p, hi, hf, h⟩ |
    ⟨p0, p1, t, hi, hr, h | h⟩ | ⟨p, v, hi, hr, hw, h⟩ | ⟨hi, h⟩
  · rw [h]; exact .fault k
  · exact adv _ h fun hip => by
      simpa [applyEffects, memWrite] using Committed.store p0 p1 p2 d v hi hw h0 hc hv hip
  · exact adv _ h fun hip => by
      simpa [applyEffects, memWrite, hq] using Committed.input p d v q hi hq hw h0 hc hip
  · rw [h]; exact .inputHold p hi hq
  · exact adv _ h fun hip => by simpa [applyEffects] using Committed.output p v hi hr hf hip
  · rw [h]; exact .outputHold p hi hf
  · rw [h]; simpa [commit, applyEffects] using Committed.jump p0 p1 t hi hr
  · exact adv _ h fun hip => by simpa [applyEffects] using Committed.noJump p0 p1 hi hip
  · exact adv _ h fun hip => by simpa [applyEffects] using Committed.base p v hi hr hw hip
  · rw [h]; exact .halt hi

/-- What `exec` can answer: the one lemma to take an `exec` equation apart with. -/
theorem exec_cases {i : Instr} {s t : State} (h : exec i s = .next t) : ∃ r, Committed i s t r := by
  rw [exec_eq_commit] at h
  cases h
  exact ⟨_, committed i s⟩

/-- What a step can do, with its response: the one lemma to take a step apart with. -/
theorem stepResponse_committed (s : State) :
    (∃ r, s.fr = some r ∧ stepResponse s = (s, .fault r.kind r.ip)) ∨
    (s.fr = none ∧ s.halted = true ∧ stepResponse s = faulted .alreadyHalted s) ∨
    (∃ k, s.fr = none ∧ s.halted = false ∧ fetchInstr s = .error k ∧ stepResponse s = faulted k s) ∨
    (∃ i, s.fr = none ∧ s.halted = false ∧ fetchInstr s = .ok i ∧
      Committed i s (stepResponse s).1 (stepResponse s).2) := by
  rcases stepResponse_cases s with h | h | h | ⟨i, h1, h2, h3, h4⟩
  · exact .inl h
  · exact .inr (.inl h)
  · exact .inr (.inr (.inl h))
  · exact .inr (.inr (.inr ⟨i, h1, h2, h3, by rw [h4]; exact committed i s⟩))

/-- An instruction is fetched only at an address. -/
theorem ip_of_fetchInstr_ok {s : State} {i : Instr} (h : fetchInstr s = .ok i) : 0 ≤ s.ip := by
  unfold fetchInstr at h
  split at h
  · cases h
  · rename_i hh
    exact not_lt.1 hh

/-- The memory of a list of Words reads back as the list, and 0 around it. -/
theorem Memory.read_ofWords : ∀ (ws : List Word) (b a : Nat),
    (Memory.ofWords b ws).read a = if a < b then 0 else ws.getD (a - b) 0
  | [], b, a => by simp [Memory.ofWords]
  | v :: vs, b, a => by
    have ih := Memory.read_ofWords vs (b + 1) a
    rw [Memory.ofWords]
    split
    · rename_i hv
      rw [ih]
      by_cases h1 : a < b
      · simp [h1, show a < b + 1 by omega]
      · by_cases h2 : a = b
        · subst h2; simp [hv]
        · rw [if_neg (by omega), if_neg h1, show a - b = (a - (b + 1)) + 1 by omega]; simp
    · rw [Memory.read_cons, ih]
      by_cases h2 : b = a
      · subst h2; simp
      · rw [if_neg h2]
        by_cases h1 : a < b
        · simp [h1, show a < b + 1 by omega]
        · rw [if_neg (by omega), if_neg h1, show a - b = (a - (b + 1)) + 1 by omega]; simp

/-- Consecutive Words, address by address. -/
theorem readWords_eq_map (s : State) : ∀ n a, readWords s a n = (List.range n).map fun k => memRead s (a + k)
  | 0, _ => rfl
  | n + 1, a => by
    rw [readWords, readWords_eq_map s n, List.range_succ_eq_map]
    simp only [List.map_cons, List.map_map, Nat.add_zero, List.cons.injEq, true_and]
    refine List.map_congr_left fun k _ => ?_
    simp only [Function.comp]
    congr 1
    omega

end Sys2Proof.Machine
end

