-- ==== Sys2Proof/Laws/PerInstr.lean ====
section
/-! SUPPORT. Statements made of every instruction, one lemma per constructor. -/

/-- Family EncodedLength (R60, R70, R72): an instruction has one parameter per role of its row, its encoding
has as many words as its stride, and the stride is the parameter count plus one. -/
def Sys2Proof.Laws.EncodedLength.Statement (i : Sys2Proof.Instr) : Prop :=
  i.params.length = i.opcode.roles.length ∧ (Sys2Proof.encode i).length = i.opcode.stride ∧
    i.opcode.stride = i.params.length + 1

theorem Sys2Proof.Laws.EncodedLength.add (p0 p1 p2 : Sys2Proof.Param) :
    Sys2Proof.Laws.EncodedLength.Statement (.add p0 p1 p2) := ⟨rfl, rfl, rfl⟩
theorem Sys2Proof.Laws.EncodedLength.mul (p0 p1 p2 : Sys2Proof.Param) :
    Sys2Proof.Laws.EncodedLength.Statement (.mul p0 p1 p2) := ⟨rfl, rfl, rfl⟩
theorem Sys2Proof.Laws.EncodedLength.inp (p0 : Sys2Proof.Param) :
    Sys2Proof.Laws.EncodedLength.Statement (.inp p0) := ⟨rfl, rfl, rfl⟩
theorem Sys2Proof.Laws.EncodedLength.out (p0 : Sys2Proof.Param) :
    Sys2Proof.Laws.EncodedLength.Statement (.out p0) := ⟨rfl, rfl, rfl⟩
theorem Sys2Proof.Laws.EncodedLength.jnz (p0 p1 : Sys2Proof.Param) :
    Sys2Proof.Laws.EncodedLength.Statement (.jnz p0 p1) := ⟨rfl, rfl, rfl⟩
theorem Sys2Proof.Laws.EncodedLength.jz (p0 p1 : Sys2Proof.Param) :
    Sys2Proof.Laws.EncodedLength.Statement (.jz p0 p1) := ⟨rfl, rfl, rfl⟩
theorem Sys2Proof.Laws.EncodedLength.lt (p0 p1 p2 : Sys2Proof.Param) :
    Sys2Proof.Laws.EncodedLength.Statement (.lt p0 p1 p2) := ⟨rfl, rfl, rfl⟩
theorem Sys2Proof.Laws.EncodedLength.eq (p0 p1 p2 : Sys2Proof.Param) :
    Sys2Proof.Laws.EncodedLength.Statement (.eq p0 p1 p2) := ⟨rfl, rfl, rfl⟩
theorem Sys2Proof.Laws.EncodedLength.arb (p0 : Sys2Proof.Param) :
    Sys2Proof.Laws.EncodedLength.Statement (.arb p0) := ⟨rfl, rfl, rfl⟩
theorem Sys2Proof.Laws.EncodedLength.halt : Sys2Proof.Laws.EncodedLength.Statement .halt := ⟨rfl, rfl, rfl⟩
end

