-- ==== Sys2Proof/Tests/Slice0.lean ====
section
/-! SUPPORT. The model's own tests: well-formedness, decoding, one step per instruction, commands (expected
results from 95_test_vectors.md), and a witness for the hypotheses of each obligation. -/

namespace Sys2Proof.Tests

open Sys2Proof.Machine

/-! ### Helpers -/

/-- The state right after a LOAD of the words, with empty queues (R272). -/
def loaded (c : Config) (ws : List Word) : State := resetState { State.reset with cfg := c, program := ws }

/-- On the default instance. -/
def at64 (ws : List Word) : State := loaded Config.default ws

/-- `WORD_BITS = 8` (WMIN = -128, WMAX = CAP = 127) and queues of one entry. -/
def byteConfig : Config := { wordBits := some 8, memWords := none, inCap := some 1, outCap := some 1 }

/-- On the 8-bit instance. -/
def at8 (ws : List Word) : State := loaded byteConfig ws

/-- On the instance with every parameter unbounded, the reference semantics of R2. -/
def atZ (ws : List Word) : State := loaded { wordBits := none, memWords := none, inCap := none, outCap := none } ws

/-- The state a step leaves. -/
def after (s : State) : State :=
  match step s with
  | .next t => t
  | .fault _ => s
  | .refused _ => s

/-- The response of a step. -/
def answer (s : State) : StepResult := (stepResponse s).2

/-- `[n]`, `#n` and `[rb+n]` of the spec's notation (R90). -/
def pos (n : Word) : Param := ⟨.position, n⟩
def imm (n : Word) : Param := ⟨.immediate, n⟩
def rel (n : Word) : Param := ⟨.relative, n⟩

/-- A Boolean form of the invariant. -/
def invCheck (s : State) : Bool :=
  s.cfg.legal && s.mem.wf && s.mem.all (fun e => decide (e.1 < s.extent) && s.cfg.inWord e.2) &&
    s.cfg.fits s.extent && s.program.all s.cfg.inWord && s.cfg.fits s.program.length && s.cfg.inWord s.ip &&
    s.cfg.inWord s.rb && s.fr.all (fun r => s.cfg.inWord r.ip) && s.inq.all s.cfg.inWord &&
    s.outq.all s.cfg.inWord && s.cfg.inCap.all (fun m => decide (s.inq.length ≤ m)) &&
    s.cfg.outCap.all (fun m => decide (s.outq.length ≤ m))

theorem inv_of_check {s : State} (h : invCheck s = true) : s.Inv := by
  simp only [invCheck, Bool.and_eq_true, List.all_eq_true, Option.all_eq_true, decide_eq_true_eq] at h
  obtain ⟨⟨⟨⟨⟨⟨⟨⟨⟨⟨⟨⟨h1, h2⟩, h3⟩, h4⟩, h5⟩, h6⟩, h7⟩, h8⟩, h9⟩, h10⟩, h11⟩, h12⟩, h13⟩ := h
  exact ⟨h1, h2, fun e he => (h3 e he).1, fun e he => (h3 e he).2, h4, h5, h6, h7, h8, h9, h10, h11, h12, h13⟩

/-! ### Well-formedness: one ill-formed term per check -/

theorem test_wf_accepts : (Instr.add (rel 3) (imm 5) (pos 7)).wf Config.default = true := by decide
/-- The opcode word 1101 is no Word at W = 8 (95_test_vectors.md section 2.2); 101 is one. -/
theorem test_wf_refuses_opcode_word : (Instr.add (imm 1) (imm 1) (pos 5)).wf byteConfig = false ∧
    (Instr.add (imm 1) (pos 1) (pos 5)).wf byteConfig = true := by decide
/-- A raw operand of 128 is no Word at W = 8; 127 is one. -/
theorem test_wf_refuses_raw_operand : (Instr.out (pos 128)).wf byteConfig = false ∧
    (Instr.out (pos 127)).wf byteConfig = true := by decide
/-- R68: a Write-role parameter is not Immediate. -/
theorem test_wf_refuses_immediate_write : (Instr.add (pos 0) (pos 0) (imm 5)).wf Config.default = false ∧
    (Instr.inp (imm 5)).wf Config.default = false := by decide

/-- The two examples of R2. -/
theorem test_isa_string : Config.default.isaString = "Intcode-10op-PIR/W64" ∧
    (atZ []).cfg.isaString = "Intcode-10op-PIR/Wunbounded" := by decide

/-! ### Decoding: words written out from R60, R65, R70 and R79 -/

theorem test_decode_add : decode [1201, 3, 5, 7] = .ok (.add (rel 3) (imm 5) (pos 7), []) := rfl
theorem test_decode_mul : decode [21202, 1, -1, 2] = .ok (.mul (rel 1) (imm (-1)) (rel 2), []) := rfl
theorem test_decode_in : decode [203, -2] = .ok (.inp (rel (-2)), []) := rfl
theorem test_decode_out : decode [104, -8, 99] = .ok (.out (imm (-8)), [99]) := rfl
theorem test_decode_jnz : decode [2105, 1, 0] = .ok (.jnz (imm 1) (rel 0), []) := rfl
theorem test_decode_jz : decode [1006, 101, 0] = .ok (.jz (pos 101) (imm 0), []) := rfl
theorem test_decode_lt : decode [1107, -5, 3, 9] = .ok (.lt (imm (-5)) (imm 3) (pos 9), []) := rfl
theorem test_decode_eq : decode [1008, 100, 16, 101] = .ok (.eq (pos 100) (imm 16) (pos 101), []) := rfl
theorem test_decode_arb : decode [209, 3] = .ok (.arb (rel 3), []) := rfl
theorem test_decode_halt : decode [99] = .ok (.halt, []) := rfl
/-- D8, D13, D14, H2, H4: digits without a parameter are ignored. -/
theorem test_decode_extra_digits : decode [100001, 5, 6, 7] = .ok (.add (pos 5) (pos 6) (pos 7), []) ∧
    decode [10004, 0] = .ok (.out (pos 0), []) ∧ decode [200003, 4] = .ok (.inp (pos 4), []) ∧
    decode [199] = .ok (.halt, []) ∧ decode [1099] = .ok (.halt, []) := ⟨rfl, rfl, rfl, rfl, rfl⟩
/-- D1 to D5: words that are no instruction. -/
theorem test_decode_no_opcode : decode [0] = .error .invalidOpcode ∧ decode [-1] = .error .invalidOpcode ∧
    decode [-99] = .error .invalidOpcode ∧ decode [10] = .error .invalidOpcode ∧
    decode [98] = .error .invalidOpcode := ⟨rfl, rfl, rfl, rfl, rfl⟩
/-- D7, D9, H3: a digit 3 to 9 at any position. -/
theorem test_decode_bad_digit : decode [301, 0, 0, 0] = .error .invalidParameterMode ∧
    decode [3001, 0, 0, 0] = .error .invalidParameterMode ∧
    decode [399] = .error .invalidParameterMode := ⟨rfl, rfl, rfl⟩
/-- An illegal opcode comes before an illegal digit (R249). -/
theorem test_decode_opcode_before_digit : decode [310] = .error .invalidOpcode := rfl
/-- The example of R90, read the other way. -/
theorem test_encode_add : encode (.add (rel 3) (imm 5) (pos 7)) = [1201, 3, 5, 7] := rfl
/-- Four words of 64 bits: 204, -1. -/
theorem test_table_word : decodeTableWord 128 (204 + (2 ^ 64 - 1) * 2 ^ 64) = some (.out (rel (-1))) := by decide
/-- The placed instruction is the one the next step runs. -/
theorem test_fetch_word : step (State.reset.withFetchWord 8 99) =
    .next { State.reset.withFetchWord 8 99 with halted := true } := rfl

/-! ### One step of each instruction (95_test_vectors.md section 2) -/

/-- A6: all reads come before the write, which hits the instruction's own opcode word. -/
theorem test_add_own_word : answer (at64 [1, 0, 0, 0]) = .continued ∧ memRead (after (at64 [1, 0, 0, 0])) 0 = 2 := by
  decide
/-- A3: WMAX + 1 raises Overflow and stores nothing. -/
theorem test_add_overflow : after (at64 [1101, 9223372036854775807, 1, 5]) =
    { at64 [1101, 9223372036854775807, 1, 5] with fr := some ⟨.overflow, 0⟩ } := by decide
/-- M1: the sign of a product. -/
theorem test_mul_sign : memRead (after (at64 [1102, -3, 4, 5])) 5 = -12 := by decide
/-- M6: 2^32 * 2^31 is no Word at W = 64. -/
theorem test_mul_overflow : answer (at64 [1102, 4294967296, 2147483648, 5]) = .fault .overflow 0 := by decide
/-- I3: the Relative address, RB = 5. -/
theorem test_in_relative : memRead (after { at64 [203, -2] with rb := 5, inq := [9] }) 3 = 9 ∧
    (after { at64 [203, -2] with rb := 5, inq := [9] }).inq = [] := by decide
/-- I5: the hold comes before the address check, which faults once there is input. -/
theorem test_in_hold_first : answer (at64 [3, -1]) = .awaitInput ∧
    answer { at64 [3, -1] with inq := [5] } = .fault .invalidAddress 0 := by decide
/-- O3: a negative Relative offset. -/
theorem test_out_relative : (after { at64 [204, -1] with rb := 1 }).outq = [204] := by decide
/-- Q1, step 2: OUT holds while OUTQ is full. -/
theorem test_out_full : answer { at8 [104, 2] with outq := [1] } = .awaitOutputSpace ∧
    after { at8 [104, 2] with outq := [1] } = { at8 [104, 2] with outq := [1] } := by decide
/-- J3: a negative condition is not 0. -/
theorem test_jnz_negative : (after (at64 [1105, -5, 7])).ip = 7 := by decide
/-- J9: an indirect jump through RB. -/
theorem test_jnz_indirect : (after { at64 [2105, 1, 0, 40] with rb := 3 }).ip = 40 := by decide
/-- J6. -/
theorem test_jz_taken : (after (at64 [1106, 0, 9])).ip = 9 := by decide
/-- J7. -/
theorem test_jz_untaken : (after (at64 [1106, 1, 9])).ip = 3 := by decide
/-- L4: the comparison is signed. -/
theorem test_lt_signed :
    memRead (after (at64 [1107, -9223372036854775808, 9223372036854775807, 9])) 9 = 1 := by decide
/-- L2: equal values are not less; the 0 stored still grows EXTENT to 10. -/
theorem test_lt_equal : memRead (after (at64 [1107, 3, 3, 9])) 9 = 0 ∧ (after (at64 [1107, 3, 3, 9])).extent = 10 := by
  decide
/-- E2. -/
theorem test_eq_sign : memRead (after (at64 [1108, 7, -7, 9])) 9 = 0 := by decide
/-- E4: one address read twice. -/
theorem test_eq_same : memRead (after (at64 [8, 0, 0, 5])) 5 = 1 := by decide
/-- R3: the operand is read with the old RB. -/
theorem test_arb_old_base : (after { at64 [209, 3, 0, 0, 0, 10] with rb := 2 }).rb = 12 := by decide
/-- R5. -/
theorem test_arb_overflow : answer { at64 [109, 1] with rb := 9223372036854775807 } = .fault .overflow 0 ∧
    (after { at64 [109, 1] with rb := 9223372036854775807 }).rb = 9223372036854775807 := by decide
/-- H1: IP stays, and the next step raises AlreadyHalted. -/
theorem test_halt : answer (at64 [99]) = .halted ∧ (after (at64 [99])).ip = 0 ∧
    answer (after (at64 [99])) = .fault .alreadyHalted 0 := by decide

/-! ### Fetch, capacity, and the priority of faults -/

/-- D15, D16. -/
theorem test_fetch_faults : answer { at64 [1, 0, 0, 0] with ip := -3 } = .fault .invalidAddress (-3) ∧
    answer { at64 [4, 0] with ip := 5 } = .fault .invalidOpcode 5 := by decide
/-- D18: a recorded fault is reported again and nothing changes. -/
theorem test_sticky_fault : answer { at64 [99] with fr := some ⟨.invalidOpcode, 3⟩ } = .fault .invalidOpcode 3 ∧
    after { at64 [99] with fr := some ⟨.invalidOpcode, 3⟩ } =
      { at64 [99] with fr := some ⟨.invalidOpcode, 3⟩ } := by decide
/-- C1 and C2, `MEM_WORDS = 8`. -/
theorem test_capacity :
    answer (loaded { Config.default with memWords := some 8 } [1101, 1, 1, 8]) = .fault .capacityExceeded 0 ∧
    answer (loaded { Config.default with memWords := some 8 } [1101, 1, 1, 7]) = .continued := by decide
/-- C3 and C4, W = 8. -/
theorem test_byte_overflow : memRead (after (at8 [101, 100, 4, 5, 27])) 5 = 127 ∧
    answer (at8 [101, 100, 4, 5, 28]) = .fault .overflow 0 := by decide
/-- V1, step 4: an untaken jump whose advance would pass WMAX. -/
theorem test_advance_overflow : answer { at8 (List.replicate 125 0 ++ [5, 127]) with ip := 125 } =
    .fault .overflow 125 := by decide

/-! ### Commands (95_test_vectors.md section 2.8) -/

/-- T5, T2. -/
theorem test_load : (loadCommand "-0,007".toList (at64 [])).1.program = [0, 7] ∧
    (loadCommand " 3,0,4,0,99\n".toList (at64 [])).1.program = [3, 0, 4, 0, 99] := by decide
/-- T3, T4. -/
theorem test_load_error : (["1,,2", "", "1,2,", "+1", "1;2", "9223372036854775808"].all fun t =>
    loadCommand t.toList (at64 [5]) == (at64 [5], .loadError)) = true := by decide
/-- T8, T9, T10: STATUS. -/
theorem test_status : readRegCommand 2 (after (at64 [1101, 1, 1, -1])) = .value 2 ∧
    readRegCommand 2 (after (at64 [99])) = .value 1 ∧
    readRegCommand 2 (after (after (at64 [99]))) = .value 9 ∧
    readRegCommand 7 (at64 []) = .noSuchRegister := by decide
/-- T11: the run stops at the hold, and goes on after the push. -/
theorem test_run_holds : (runUntilComplete 9 (at64 [3, 0, 99])).2 = .result .awaitInput ∧
    (runUntilComplete 9 (inPushCommand 5 (at64 [3, 0, 99])).1).2 = .complete [5, 0, 99] := by decide
/-- T12, T13. -/
theorem test_run_budget_and_output : (runUntilComplete 10 (at64 [1105, 1, 0])).2 = .budgetExhausted ∧
    (runUntilOutput 9 { at64 [104, 6, 99] with outq := [5] }).2 = .value 5 ∧
    (runUntilOutput 9 { at64 [104, 6, 99] with outq := [5] }).1.outq = [6] := by decide
/-- T14: PEEK below 0, and above EXTENT. -/
theorem test_peek : peekCommand (-1) (at64 [99]) = .invalidAddress ∧ peekCommand 1000 (at64 [99]) = .value 0 := by
  decide

/-! ### Witnesses: states and operands that meet the hypotheses of each obligation, clause by clause

At the 8-bit instance WMIN = -128, WMAX = 127 and CAP = 127, so 127 and 128 are the values on the two sides of
`inWord` and `aboveMax`, and 126 and 127 those of `atCap`. -/

/-- The 8-bit instance with IP and RB preset. -/
def byteAt (ip rb : Word) : State := { at8 [7, 9] with ip := ip, rb := rb }

/-- The three parameters of a storing instruction resolve. -/
def Resolved (s : State) (p0 p1 p2 : Param) (a b : Word) (d : Int) : Prop :=
  readParam p0 s = .ok a ∧ readParam p1 s = .ok b ∧ writeParam p2 s = .ok d

theorem witness_CanonicalWordIsTheLeast : decode [10004, 0] = .ok (.out (pos 0), []) := rfl

theorem witness_OpcodeWordsAreAcceptedExactly :
    ((-1 : Word) < 0) ∧
    ((0 : Word) ≤ 98 ∧ (98 : Word).toNat % 100 ∉ [1, 2, 3, 4, 5, 6, 7, 8, 9, 99]) ∧
    ((0 : Word) ≤ 301 ∧ (301 : Word).toNat % 100 ∈ [1, 2, 3, 4, 5, 6, 7, 8, 9, 99] ∧
      ∃ k, 2 < digit k ((301 : Word).toNat / 100)) ∧
    ((0 : Word) ≤ 299 ∧ (299 : Word).toNat % 100 ∈ [1, 2, 3, 4, 5, 6, 7, 8, 9, 99] ∧
      ∀ k, digit k ((299 : Word).toNat / 100) ≤ 2) ∧
    ((at64 [301]).fr = none ∧ (at64 [301]).halted = false ∧ 0 ≤ (at64 [301]).ip ∧
      memRead (at64 [301]) (at64 [301]).ip.toNat = 301 ∧ decodeWord 301 = .error .invalidParameterMode) :=
  ⟨by decide, by decide, ⟨by decide, by decide, 0, by decide⟩,
    ⟨by decide, by decide, (all_decimalDigits 2 2).1 (by decide)⟩, rfl, rfl, by decide, rfl, rfl⟩

theorem witness_PseudoInstructionsExpand :
    readParam (rel 0) (byteAt 5 1) = .ok 9 ∧
    (readParam (pos 0) (byteAt 123 0) = .ok 7 ∧ writeParam (pos 126) (byteAt 123 0) = .ok 126 ∧
      byteConfig.inWord 7 = true ∧ (0 : Int) ≤ 126 ∧ byteConfig.atCap 126 = false ∧
      byteConfig.aboveMax (123 + 4) = false) ∧
    byteConfig.aboveMax ((byteAt 124 0).ip + 3) = false :=
  ⟨rfl, ⟨rfl, rfl, by decide⟩, by decide⟩

theorem witness_WordRangeIsTwosComplement : byteConfig.wordBits = some 8 ∧ byteConfig.inWord 127 = true ∧
    byteConfig.inWord 128 = false ∧ byteConfig.inWord (-128) = true ∧ byteConfig.inWord (-129) = false ∧
    (atZ []).cfg.wordBits = none := by decide

theorem witness_ReadsBeyondExtentGiveZero :
    (at8 [7, 9]).Inv ∧ (at8 [7, 9]).extent ≤ 2 ∧ byteConfig.atCap 127 = true :=
  ⟨inv_of_check (by decide), by decide, by decide⟩

theorem witness_WritesGrowExtentAndAreChecked :
    (1 ≠ 0 ∧ (at8 [7, 9]).extent ≤ 2 ∧ 1 < (at8 [7, 9]).extent) ∧
    ((at8 [7, 9]).Inv ∧ (at8 [7, 9]).extent ≤ 2 ∧ 2 < 3) ∧
    ((-1 : Int) < 0 ∧ (0 : Int) ≤ 127 ∧ byteConfig.atCap 127 = true ∧ (0 : Int) ≤ 126 ∧
      byteConfig.atCap 126 = false) :=
  ⟨by decide, ⟨inv_of_check (by decide), by decide, by decide⟩, by decide⟩

/-- The word 104 stored at IP, before the operand 9. -/
theorem witness_StoresAreSeenByTheNextFetch : (byteAt 0 0).ip = (0 : Nat) ∧
    decode (104 :: readWords (byteAt 0 0) (0 + 1) (wordLength 104 - 1)) = .ok (.out (imm 9), []) := ⟨rfl, rfl⟩

theorem witness_ParametersResolveByModeAndRole : ((-1 : Word) < 0 ∧ (0 : Word) ≤ 0) ∧
    ((byteAt 0 1).rb + (-2) < 0 ∧ 0 ≤ (byteAt 0 1).rb + (-1)) ∧ (byteAt 0 0).rb = 0 := by decide

/-- The Immediate Write-role parameter of `11101,1,1,5` (A9), and `1,-1,0,0` (D10), whose first parameter
fails before the rest is looked at. -/
theorem witness_FirstFailingParameterEndsTheStep :
    (Opcode.roles .add |>.zip [imm 1, imm 1, imm 5]).findSome? (resolutionFault (at64 [])) =
      some .invalidParameterMode ∧
    (Opcode.roles .add |>.zip [pos (-1), imm 1, imm 5]).findSome? (resolutionFault (at64 [])) =
      some .invalidAddress := by decide

theorem witness_AddStoresTheExactSum_completes : Resolved (byteAt 123 0) (imm 100) (imm 27) (pos 126) 100 27 126 ∧
    byteConfig.inWord (100 + 27) = true ∧ (0 : Int) ≤ 126 ∧ byteConfig.atCap 126 = false ∧
    byteConfig.aboveMax (123 + 4) = false := ⟨⟨rfl, rfl, rfl⟩, by decide⟩
theorem witness_AddStoresTheExactSum_faults :
    (Resolved (byteAt 0 0) (imm 100) (imm 28) (pos 5) 100 28 5 ∧ byteConfig.inWord (100 + 28) = false) ∧
    (Resolved (byteAt 0 0) (imm 1) (imm 1) (pos (-1)) 1 1 (-1) ∧ byteConfig.inWord (1 + 1) = true) ∧
    (Resolved (byteAt 0 0) (imm 1) (imm 1) (pos 127) 1 1 127 ∧ byteConfig.atCap 127 = true) ∧
    (Resolved (byteAt 124 0) (imm 1) (imm 1) (pos 126) 1 1 126 ∧ byteConfig.inWord (1 + 1) = true ∧
      byteConfig.atCap 126 = false ∧ byteConfig.aboveMax (124 + 4) = true) :=
  ⟨⟨⟨rfl, rfl, rfl⟩, by decide⟩, ⟨⟨rfl, rfl, rfl⟩, by decide⟩, ⟨⟨rfl, rfl, rfl⟩, by decide⟩,
    ⟨⟨rfl, rfl, rfl⟩, by decide⟩⟩
/-- The first, second or third parameter of ADD, MUL, LT or EQ that fails; the first two for JNZ and JZ; the
one of OUT and ARB; IN's Immediate one. -/
theorem witness_ParameterFaults : readParam (rel (-1)) (byteAt 0 0) = .error .invalidAddress ∧
    (readParam (imm 1) (byteAt 0 0) = .ok 1 ∧ readParam (pos (-1)) (byteAt 0 0) = .error .invalidAddress) ∧
    (readParam (imm 1) (byteAt 0 0) = .ok 1 ∧ readParam (pos 0) (byteAt 0 0) = .ok 7 ∧
      writeParam (imm 5) (byteAt 0 0) = .error .invalidParameterMode) ∧
    (imm 5).mode = .immediate := ⟨rfl, ⟨rfl, rfl⟩, ⟨rfl, rfl, rfl⟩, rfl⟩

theorem witness_MulStoresTheExactProduct_completes :
    Resolved (byteAt 123 0) (imm (-64)) (imm 2) (pos 0) (-64) 2 0 ∧ byteConfig.inWord (-64 * 2) = true ∧
    byteConfig.atCap 0 = false ∧ byteConfig.aboveMax (123 + 4) = false := ⟨⟨rfl, rfl, rfl⟩, by decide⟩
theorem witness_MulStoresTheExactProduct_faults :
    (Resolved (byteAt 0 0) (imm (-128)) (imm (-1)) (pos 5) (-128) (-1) 5 ∧
      byteConfig.inWord (-128 * -1) = false) ∧
    (Resolved (byteAt 0 0) (imm 1) (imm 1) (rel (-1)) 1 1 (-1) ∧ byteConfig.inWord (1 * 1) = true) ∧
    (Resolved (byteAt 0 1) (imm 1) (imm 1) (rel 126) 1 1 127 ∧ byteConfig.atCap 127 = true) ∧
    (Resolved (byteAt 124 0) (imm 1) (imm 1) (pos 126) 1 1 126 ∧ byteConfig.atCap 126 = false ∧
      byteConfig.aboveMax (124 + 4) = true) :=
  ⟨⟨⟨rfl, rfl, rfl⟩, by decide⟩, ⟨⟨rfl, rfl, rfl⟩, by decide⟩, ⟨⟨rfl, rfl, rfl⟩, by decide⟩,
    ⟨⟨rfl, rfl, rfl⟩, by decide⟩⟩

/-- LT and EQ have the same hypotheses. -/
theorem witness_LtStoresTheSignedComparison_EqStoresTheEquality :
    (Resolved (byteAt 123 0) (imm (-128)) (imm 127) (pos 126) (-128) 127 126 ∧ (0 : Int) ≤ 126 ∧
      byteConfig.atCap 126 = false ∧ byteConfig.aboveMax (123 + 4) = false) ∧
    (Resolved (byteAt 0 0) (imm 1) (imm 1) (pos (-1)) 1 1 (-1) ∧ (-1 : Int) < 0) ∧
    (Resolved (byteAt 0 0) (imm 1) (imm 1) (pos 127) 1 1 127 ∧ byteConfig.atCap 127 = true) ∧
    (Resolved (byteAt 124 0) (imm 1) (imm 1) (pos 0) 1 1 0 ∧ byteConfig.atCap 0 = false ∧
      byteConfig.aboveMax (124 + 4) = true) :=
  ⟨⟨⟨rfl, rfl, rfl⟩, by decide⟩, ⟨⟨rfl, rfl, rfl⟩, by decide⟩, ⟨⟨rfl, rfl, rfl⟩, by decide⟩,
    ⟨⟨rfl, rfl, rfl⟩, by decide⟩⟩

theorem witness_InStoresTheOldestInput :
    (writeParam (pos (-1)) (byteAt 0 0) = .ok (-1) ∧ (byteAt 0 0).inq = []) ∧
    ({ byteAt 125 0 with inq := [9] }.inq = 9 :: [] ∧ (0 : Int) ≤ 126 ∧ byteConfig.atCap 126 = false ∧
      byteConfig.aboveMax (125 + 2) = false) ∧
    ((-1 : Int) < 0 ∧ byteConfig.atCap 127 = true ∧ byteConfig.aboveMax (126 + 2) = true) :=
  ⟨⟨rfl, rfl⟩, by decide, by decide⟩

theorem witness_OutAppendsTheValue :
    (readParam (pos 0) { byteAt 0 0 with outq := [1] } = .ok 7 ∧
      byteConfig.outCap = some { byteAt 0 0 with outq := [1] }.outq.length) ∧
    (readParam (pos 0) (byteAt 125 0) = .ok 7 ∧ byteConfig.outCap ≠ some (byteAt 125 0).outq.length ∧
      byteConfig.aboveMax (125 + 2) = false) ∧
    (readParam (pos 0) (byteAt 126 0) = .ok 7 ∧ byteConfig.aboveMax (126 + 2) = true) :=
  ⟨⟨rfl, rfl⟩, ⟨rfl, by decide⟩, rfl, by decide⟩

/-- JNZ and JZ have the same hypotheses, with the condition the other way round. -/
theorem witness_JnzJumpsWhenNotZero_JzJumpsWhenZero :
    (readParam (imm (-1)) (byteAt 0 0) = .ok (-1) ∧ readParam (imm (-5)) (byteAt 0 0) = .ok (-5) ∧
      (-1 : Word) ≠ 0) ∧
    (readParam (pos 2) (byteAt 124 0) = .ok 0 ∧ readParam (pos 1) (byteAt 124 0) = .ok 9 ∧
      byteConfig.aboveMax (124 + 3) = false) ∧
    (readParam (imm 0) (byteAt 125 0) = .ok 0 ∧ readParam (imm 1) (byteAt 125 0) = .ok 1 ∧
      byteConfig.aboveMax (125 + 3) = true) :=
  ⟨⟨rfl, rfl, by decide⟩, ⟨rfl, rfl, by decide⟩, rfl, rfl, by decide⟩

theorem witness_ArbMovesTheRelativeBase :
    (readParam (imm 27) (byteAt 125 100) = .ok 27 ∧ byteConfig.inWord (100 + 27) = true ∧
      byteConfig.aboveMax (125 + 2) = false) ∧
    (readParam (imm (-29)) (byteAt 0 (-100)) = .ok (-29) ∧ byteConfig.inWord (-100 + -29) = false) ∧
    (readParam (imm 1) (byteAt 126 0) = .ok 1 ∧ byteConfig.inWord (0 + 1) = true ∧
      byteConfig.aboveMax (126 + 2) = true) :=
  ⟨⟨rfl, by decide⟩, ⟨rfl, by decide⟩, rfl, by decide⟩

theorem witness_HaltSetsHaltedAndKeepsIp : (at64 [99]).fr = none ∧
    ((0 : Word) ≤ 299 ∧ (299 : Word).toNat % 100 = 99 ∧ ∀ k, digit k ((299 : Word).toNat / 100) ≤ 2) ∧
    ((0 : Word) ≤ 399 ∧ (399 : Word).toNat % 100 = 99 ∧ ∃ k, 2 < digit k ((399 : Word).toNat / 100)) :=
  ⟨rfl, ⟨by decide, by decide, (all_decimalDigits 2 2).1 (by decide)⟩, by decide, by decide, 0, by decide⟩

/-- `exec` answers a next state: for each form of StoringInstructionsFrame. -/
theorem witness_StoringInstructionsFrame :
    (∃ t, exec (.add (imm 1) (imm 1) (pos 0)) (at64 []) = .next t) ∧
    (∃ t, exec (.mul (imm 1) (imm 1) (pos 0)) (at64 []) = .next t) ∧
    (∃ t, exec (.lt (imm 1) (imm 1) (pos 0)) (at64 []) = .next t) ∧
    (∃ t, exec (.eq (imm 1) (imm 1) (pos 0)) (at64 []) = .next t) := ⟨⟨_, rfl⟩, ⟨_, rfl⟩, ⟨_, rfl⟩, ⟨_, rfl⟩⟩
theorem witness_InputInstructionFrame : (∃ t, exec (.inp (pos 0)) { at64 [] with inq := [1] } = .next t) ∧
    ∃ t, exec (.inp (pos 0)) (at64 []) = .next t := ⟨⟨_, rfl⟩, ⟨_, rfl⟩⟩
theorem witness_OutputInstructionFrame : (∃ t, exec (.out (pos 0)) (at8 []) = .next t) ∧
    ∃ t, exec (.out (pos 0)) { at8 [] with outq := [1] } = .next t := ⟨⟨_, rfl⟩, ⟨_, rfl⟩⟩
theorem witness_JumpInstructionsFrame : (∃ t, exec (.jnz (imm 1) (imm 5)) (at64 []) = .next t) ∧
    ∃ t, exec (.jz (imm 1) (imm 5)) (at64 []) = .next t := ⟨⟨_, rfl⟩, ⟨_, rfl⟩⟩
theorem witness_BaseAndHaltInstructionsFrame : (∃ t, exec (.arb (imm 1)) (at64 []) = .next t) ∧
    ∃ t, exec .halt (at64 []) = .next t := ⟨⟨_, rfl⟩, ⟨_, rfl⟩⟩

theorem witness_StepRunsTheDecodedInstruction : (at64 [204, -1]).fr = none ∧ (at64 [204, -1]).halted = false ∧
    0 ≤ (at64 [204, -1]).ip ∧ decode (instrWords (at64 [204, -1])) = .ok (.out (rel (-1)), []) :=
  ⟨rfl, rfl, by decide, rfl⟩
theorem witness_StepRunsTheEncodedInstruction : (at64 [204, -1]).fr = none ∧ (at64 [204, -1]).halted = false ∧
    0 ≤ (at64 [204, -1]).ip ∧ readWords (at64 [204, -1]) 0 2 = encode (.out (rel (-1))) := by decide
theorem witness_StepEntryChecks : { at64 [] with fr := some ⟨.overflow, 4⟩ }.fr = some ⟨.overflow, 4⟩ ∧
    ({ at64 [] with halted := true }.fr = none ∧ { at64 [] with halted := true }.halted = true) := by decide
theorem witness_FetchFaults :
    ({ at64 [] with ip := -1 }.fr = none ∧ { at64 [] with ip := -1 }.halted = false ∧ (-1 : Word) < 0) ∧
    ({ at64 [1] with ip := 1 }.Inv ∧ (0 : Word) ≤ 1 ∧ ((at64 [1]).extent : Int) ≤ 1) ∧
    ∃ t, step (at64 [1105, 1, -1]) = .next t ∧ 0 ≤ (at64 [1105, 1, -1]).ip ∧ t.ip < 0 :=
  ⟨by decide, ⟨inv_of_check (by decide), by decide, by decide⟩, _, rfl, by decide, by decide⟩
theorem witness_CommitOfEachOutcome : byteConfig.aboveMax (125 + (2 : Nat)) = false ∧
    byteConfig.aboveMax (126 + (2 : Nat)) = true := by decide
theorem witness_FaultsArePreciseAndSticky :
    (at64 [1101, 1, 1, -1]).fr = none ∧ (stepResponse (at64 [1101, 1, 1, -1])).2 = .fault .invalidAddress 0 := by
  decide
theorem witness_HoldsChangeNothingUntilLifted :
    ((stepResponse (at8 [3, 5])).2 = .awaitInput ∧ ∃ t, inPushCommand 9 (at8 [3, 5]) = (t, .ok)) ∧
    ((stepResponse { at8 [104, 2] with outq := [1] }).2 = .awaitOutputSpace ∧
      ∃ t, outPopCommand { at8 [104, 2] with outq := [1] } = (t, .value 1)) :=
  ⟨⟨by decide, _, rfl⟩, by decide, _, rfl⟩
theorem witness_OnlyHaltSetsHalted : (∃ t, step (at64 [99]) = .next t ∧ t.halted = true) ∧
    ∃ t, step { at64 [] with halted := true } = .next t := ⟨⟨_, rfl, rfl⟩, _, rfl⟩
theorem witness_OnlyArbChangesTheRelativeBase :
    ∃ t, step (at64 [109, 5]) = .next t ∧ t.rb ≠ (at64 [109, 5]).rb := ⟨_, rfl, by decide⟩
theorem witness_QueuesMoveOnlyThroughInAndOut : (∃ t, step { at64 [3, 5] with inq := [1, 2] } = .next t ∧ t.inq = [2]) ∧
    ∃ t, step { at64 [104, 8] with outq := [1] } = .next t ∧ t.outq = [1, 8] := ⟨⟨_, rfl, rfl⟩, _, rfl, rfl⟩
theorem witness_StepKeepsProgramAndNeverShrinksMemory :
    ∃ t, step (at64 [1101, 2, 3, 1000]) = .next t ∧ t.extent = 1001 := ⟨_, rfl, rfl⟩
theorem witness_JumpTargetsAreCheckedAtTheNextFetch :
    (readParam (imm 1) (at64 [7]) = .ok 1 ∧ readParam (imm (-1)) (at64 [7]) = .ok (-1) ∧ (1 : Word) ≠ 0 ∧
      (at64 [7]).fr = none ∧ (at64 [7]).halted = false ∧ (-1 : Word) < 0) ∧
    (readParam (imm 0) (at64 [7]) = .ok 0 ∧ readParam (imm 1) (at64 [7]) = .ok 1 ∧ (at64 [7]).Inv ∧
      (0 : Word) ≤ 1 ∧ ((at64 [7]).extent : Int) ≤ 1) :=
  ⟨⟨rfl, rfl, by decide⟩, rfl, rfl, inv_of_check (by decide), by decide, by decide⟩
theorem witness_PositionEqualsRelativeAtBaseZero : (at64 [1, 5, 6, 7]).rb = 0 := rfl
theorem witness_UnboundedInstancesNeverOverflow : (∃ t, step (atZ [1101, 1, 1, -1]) = .next t ∧
    (atZ [1101, 1, 1, -1]).fr = none ∧ t.fr = some ⟨.invalidAddress, 0⟩) ∧
    (atZ []).cfg.wordBits = none ∧ (atZ []).cfg.memWords = none := ⟨⟨_, rfl, rfl, rfl⟩, rfl, rfl⟩
theorem witness_StepKeepsTheInvariant :
    (at8 [7, 9]).Inv ∧ ∃ t, step (at8 [7, 9]) = .next t := ⟨inv_of_check (by decide), _, rfl⟩

/-- Commands that return: one with a response of its own, one unbounded run. -/
theorem witness_CommandsKeepTheInvariant : (at8 [99]).Inv ∧ (∃ t r, Returns (.inPush 5) (at8 [99]) t r) ∧
    ∃ t, Returns (.runUntilComplete none) (at8 [99]) t (.complete [99]) :=
  ⟨inv_of_check (by decide), ⟨_, _, 0, rfl⟩, _, 1, rfl⟩
theorem witness_CommandsAreDeterministic :
    ∃ t, Returns (.runUntilComplete none) (at8 [99]) t (.complete [99]) := ⟨_, 1, rfl⟩
theorem witness_ReachableStatesMeetTheInvariant : byteConfig.legal = true ∧
    Reachable byteConfig { State.reset with cfg := byteConfig } ∧
    ∃ t, Reachable byteConfig t ∧ t.inq = [5] :=
  ⟨by decide, .powerOn, { State.reset with cfg := byteConfig, inq := [5] },
    .after .powerOn (cmd := .inPush 5) (r := .ok) ⟨0, rfl⟩, rfl⟩
theorem witness_LoadParsesAndResets : parseProgram byteConfig "-128,127".toList = some [-128, 127] ∧
    parseProgram byteConfig "128".toList = none := by decide
theorem witness_LoadThenPeekGivesTheProgram : ∃ t, loadCommand "5,6".toList (at8 [99]) = (t, .ok) ∧
    0 < t.program.length ∧ t.program.length ≤ 2 := ⟨_, rfl, by decide, by decide⟩
theorem witness_QueuePorts : byteConfig.inWord 128 = false ∧ byteConfig.inWord 127 = true ∧
    byteConfig.inCap = some { at8 [] with inq := [1] }.inq.length ∧ byteConfig.inCap ≠ some (at8 []).inq.length ∧
    byteConfig.outCap = some { at8 [] with outq := [1] }.outq.length ∧
    byteConfig.outCap ≠ some (at8 []).outq.length ∧ (at8 []).inq = [] ∧ { at8 [] with inq := [1] }.inq = 1 :: [] ∧
    (at8 []).outq = [] ∧ { at8 [] with outq := [1] }.outq = 1 :: [] := by decide
theorem witness_ReadOutPortsOnlyRead : (-1 : Int) < 0 ∧ (0 : Int) ≤ 0 ∧ hostRegister (at8 [7]) 6 = some 1 ∧ 7 ≤ 7 := by
  decide
theorem witness_HostRegisterMap : (at8 []).fr = none ∧
    { at8 [] with fr := some ⟨.capacityExceeded, 4⟩ }.fr = some ⟨.capacityExceeded, 4⟩ ∧ 7 ≤ 7 := by decide
theorem witness_BudgetBoundsTheRun : (runUntilComplete 3 (at64 [1105, 1, 0])).2 = .budgetExhausted ∧
    (runUntilOutput 3 (at64 [1105, 1, 0])).2 = .budgetExhausted := by decide
/-- ICSPEC's scenario 1 (95_test_vectors.md 1.1), with its own final memory. -/
theorem witness_CompleteIsASuccessfulEnd :
    ∃ t, runUntilComplete 3 (at64 [1, 9, 10, 3, 2, 3, 11, 0, 99, 30, 40, 50]) =
      (t, .complete [3500, 9, 10, 70, 2, 3, 11, 0, 99, 30, 40, 50]) := ⟨_, rfl⟩
/-- The last step of the budget is the one that halts, holds or faults. -/
theorem witness_CompleteIsASuccessfulEnd_ends :
    ((∀ j < 1, (stepResponse (afterSteps j (at64 [109, 1, 99]))).2 = .continued) ∧
      (stepResponse (afterSteps 1 (at64 [109, 1, 99]))).2 = .halted) ∧
    ((∀ j < 1, (stepResponse (afterSteps j (at64 [109, 1, 3, 5]))).2 = .continued) ∧
      (stepResponse (afterSteps 1 (at64 [109, 1, 3, 5]))).2 = .awaitInput) ∧
    ((∀ j < 1, (stepResponse (afterSteps j (at8 [104, 1, 104, 2]))).2 = .continued) ∧
      (stepResponse (afterSteps 1 (at8 [104, 1, 104, 2]))).2 = .awaitOutputSpace) ∧
    ((∀ j < 1, (stepResponse (afterSteps j (at64 [1105, 1, -1]))).2 = .continued) ∧
      (stepResponse (afterSteps 1 (at64 [1105, 1, -1]))).2 = .fault .invalidAddress (-1)) := by decide
theorem witness_RunUntilOutputReturnsTheOldest :
    ∃ t, runUntilOutput 1 { at64 [104, 6, 99] with outq := [5] } = (t, .value 5) := ⟨_, rfl⟩
/-- One ARB, then at the last step of the budget an OUT, a HALT, the two holds and a fault. -/
theorem witness_RunUntilOutputReturnsTheOldest_ends :
    (((stepResponse (at64 [109, 1, 104, 7])).2 = .continued ∧ nextIsOut (at64 [109, 1, 104, 7]) = false) ∧
      (∃ p, fetchInstr (afterSteps 1 (at64 [109, 1, 104, 7])) = .ok (.out p)) ∧
      (stepResponse (afterSteps 1 (at64 [109, 1, 104, 7]))).2 = .continued) ∧
    (nextIsOut (at64 [109, 1, 99]) = false ∧ (stepResponse (afterSteps 1 (at64 [109, 1, 99]))).2 = .halted) ∧
    (nextIsOut (at64 [109, 1, 3, 5]) = false ∧
      (stepResponse (afterSteps 1 (at64 [109, 1, 3, 5]))).2 = .awaitInput) ∧
    (nextIsOut { at8 [109, 1, 104, 2] with outq := [1] } = false ∧
      (stepResponse (afterSteps 1 { at8 [109, 1, 104, 2] with outq := [1] })).2 = .awaitOutputSpace) ∧
    (nextIsOut (at64 [1105, 1, -1]) = false ∧
      (stepResponse (afterSteps 1 (at64 [1105, 1, -1]))).2 = .fault .invalidAddress (-1)) :=
  ⟨⟨by decide, ⟨_, rfl⟩, by decide⟩, by decide, by decide, by decide, by decide⟩
/-- A run that holds, and what it answers (T11 with an ARB before the IN). -/
theorem test_run_until_output_ends : (runUntilOutput 2 (at64 [109, 1, 99])).2 = .noValue ∧
    (runUntilOutput 2 (at64 [109, 1, 3, 5])).2 = .result .awaitInput ∧
    (runUntilOutput 2 (at64 [109, 1, 104, 7])).2 = .value 7 := by decide
theorem witness_OnlyResetAndLoadLeaveAFault : { at8 [99] with fr := some ⟨.overflow, 3⟩ }.Faulted ∧
    (∃ t r, Returns .step { at8 [99] with fr := some ⟨.overflow, 3⟩ } t r) ∧
    ∃ t r, Returns (.inPush 1) { at8 [99] with fr := some ⟨.overflow, 3⟩ } t r :=
  ⟨by simp [State.Faulted], ⟨_, _, 0, rfl⟩, _, _, 0, rfl⟩
theorem witness_InstancesShareNoState :
    ∃ ss r, commandTo 0 1 (.inPush 5) [at8 [99], at64 [99]] = some (ss, r) ∧ 0 ≠ 1 := ⟨_, _, rfl, by decide⟩

end Sys2Proof.Tests
end

/-! ### The Word range and the write capacity (00_scope.md R5, 20_memory.md R45) -/

namespace Sys2Proof

theorem Config.inWord_of_unbounded {c : Config} (h : c.wordBits = none) (v : Int) : c.inWord v = true := by
  simp [Config.inWord, Config.belowMin, Config.aboveMax, h]

theorem Config.inWord_iff_of_width {c : Config} {w : Nat} (h : c.wordBits = some w) (v : Int) :
    c.inWord v = true ↔ -((2 : Int) ^ (w - 1)) ≤ v ∧ v ≤ (2 : Int) ^ (w - 1) - 1 := by
  simp [Config.inWord, Config.belowMin, Config.aboveMax, halfRange, h]

/-- Settles O6, by the two kinds of width: a finite one and the unbounded one. -/
theorem wordRangeIsTwosComplement : Obligations.WordRangeIsTwosComplement := fun _ v =>
  ⟨fun _ hw => Config.inWord_iff_of_width hw v, fun h => Config.inWord_of_unbounded h v⟩

/-- WMIN is not positive, so a value that is not negative has only WMAX to respect. -/
theorem Config.inWord_of_nonneg {c : Config} {v : Int} (h0 : 0 ≤ v) (h : c.aboveMax v = false) :
    c.inWord v = true := by
  have hmin : c.belowMin v = false := by
    unfold Config.belowMin
    cases c.wordBits with
    | none => rfl
    | some w => simp only [decide_eq_false_iff_not]; omega
  simp [Config.inWord, h, hmin]

/-- R4's least width, 8, leaves room for the Words 0 and 1 of the comparisons. -/
theorem Config.inWord_of_bit {c : Config} (hc : c.legal = true) {v : Int} (hv : v = 0 ∨ v = 1) :
    c.inWord v = true := by
  cases hw : c.wordBits with
  | none => exact Config.inWord_of_unbounded hw v
  | some w =>
    have h8 : 8 ≤ w := by
      simp only [Config.legal, hw, Option.all_some, Bool.and_eq_true, decide_eq_true_eq] at hc
      obtain ⟨⟨⟨hwidth, -⟩, -⟩, -⟩ := hc
      exact hwidth
    have h128 : (2 : Int) ^ 7 ≤ 2 ^ (w - 1) := pow_le_pow_right₀ (by norm_num) (by omega)
    rw [Config.inWord_iff_of_width hw]
    omega

theorem Config.fits_zero (c : Config) : c.fits 0 = true := by
  unfold Config.fits
  split <;> simp

/-- A write below CAP leaves an EXTENT of at most CAP (R45). -/
theorem Config.fits_succ_of_not_atCap {c : Config} {d : Int} (h0 : 0 ≤ d) (h : c.atCap d = false) :
    c.fits (d.toNat + 1) = true := by
  unfold Config.fits Config.atCap at *
  cases hcap : c.cap with
  | none => rfl
  | some m => simp only [hcap, decide_eq_false_iff_not, decide_eq_true_eq] at h ⊢; omega

end Sys2Proof

/-! ### Parameter resolution in index order (30_encoding.md R69) -/

namespace Sys2Proof.Machine

/-- Peel off a Read-role parameter: either it is the one that fails, or the failure is among the rest. -/
theorem withArg_readParam_raises {s : State} {p : Param} {rest : List (Role × Param)} {k : FaultKind}
    {act : Word → ActOutcome} (h : ((.read, p) :: rest).findSome? (resolutionFault s) = some k)
    (hrest : ∀ a, rest.findSome? (resolutionFault s) = some k → act a = .raise k) :
    withArg (readParam p s) act = .raise k := by
  cases hp : readParam p s with
  | error k' =>
    obtain rfl : k' = k := by simpa [resolutionFault, hp] using h
    rfl
  | ok a => exact hrest a (by simpa [resolutionFault, hp] using h)

/-- Peel off a Write-role parameter: either it is the one that fails, or the failure is among the rest. -/
theorem withArg_writeParam_raises {s : State} {p : Param} {rest : List (Role × Param)} {k : FaultKind}
    {act : Int → ActOutcome} (h : ((.write, p) :: rest).findSome? (resolutionFault s) = some k)
    (hrest : ∀ d, rest.findSome? (resolutionFault s) = some k → act d = .raise k) :
    withArg (writeParam p s) act = .raise k := by
  cases hp : writeParam p s with
  | error k' =>
    obtain rfl : k' = k := by simpa [resolutionFault, hp] using h
    rfl
  | ok d => exact hrest d (by simpa [resolutionFault, hp] using h)

theorem withReadReadWrite_raises {s : State} {p0 p1 p2 : Param} {k : FaultKind}
    {act : Word → Word → Int → ActOutcome}
    (h : [(.read, p0), (.read, p1), (.write, p2)].findSome? (resolutionFault s) = some k) :
    withReadReadWrite p0 p1 p2 s act = .raise k :=
  withArg_readParam_raises h fun _ h => withArg_readParam_raises h fun _ h =>
    withArg_writeParam_raises h fun _ h => nomatch h

theorem withReadRead_raises {s : State} {p0 p1 : Param} {k : FaultKind} {act : Word → Word → ActOutcome}
    (h : [(.read, p0), (.read, p1)].findSome? (resolutionFault s) = some k) :
    withReadRead p0 p1 s act = .raise k :=
  withArg_readParam_raises h fun _ h => withArg_readParam_raises h fun _ h => nomatch h

/-- The outcome of an instruction is the fault of the first parameter that does not resolve; the action is
not asked. -/
theorem outcomeOf_raises_first_resolutionFault {i : Instr} {s : State} {k : FaultKind}
    (h : (i.opcode.roles.zip i.params).findSome? (resolutionFault s) = some k) :
    outcomeOf i s = .raise k := by
  cases i with
  | add p0 p1 p2 => exact withReadReadWrite_raises h
  | mul p0 p1 p2 => exact withReadReadWrite_raises h
  | lt p0 p1 p2 => exact withReadReadWrite_raises h
  | eq p0 p1 p2 => exact withReadReadWrite_raises h
  | jnz p0 p1 => exact withReadRead_raises h
  | jz p0 p1 => exact withReadRead_raises h
  | inp p => exact withArg_writeParam_raises h fun _ h => nomatch h
  | out p => exact withArg_readParam_raises h fun _ h => nomatch h
  | arb p => exact withArg_readParam_raises h fun _ h => nomatch h
  | halt => exact nomatch h

/-- Settles O11: the outcome is a raised fault, and a commit of a raised fault is fault entry alone. -/
theorem firstFailingParameterEndsTheStep : Obligations.FirstFailingParameterEndsTheStep := by
  intro i s k h
  rw [exec_eq_commit, outcomeOf_raises_first_resolutionFault h]
  rfl

/-! ### The invariant under each update of the state (10_state.md R20 to R29) -/

theorem State.Inv.zeroWord {s : State} (h : s.Inv) : s.cfg.inWord 0 = true :=
  Config.inWord_of_bit h.cfgLegal (.inl rfl)

theorem State.Inv.takeFault {s : State} (h : s.Inv) (k : FaultKind) : (takeFault k s).Inv :=
  { h with frWord := by rintro _ ⟨⟩; exact h.ipWord }

theorem State.Inv.setIp {s : State} (h : s.Inv) {v : Word} (hv : s.cfg.inWord v = true) :
    State.Inv { s with ip := v } :=
  { h with ipWord := hv }

theorem State.Inv.setRb {s : State} (h : s.Inv) {v : Word} (hv : s.cfg.inWord v = true) :
    State.Inv { s with rb := v } :=
  { h with rbWord := hv }

theorem State.Inv.setHalted {s : State} (h : s.Inv) (b : Bool) : State.Inv { s with halted := b } :=
  { h with }

theorem State.Inv.setProgram {s : State} (h : s.Inv) {ws : List Word} (hw : allWords s.cfg ws)
    (hf : s.cfg.fits ws.length = true) : State.Inv { s with program := ws } :=
  { h with programWords := hw, programFits := hf }

theorem State.Inv.resetState {s : State} (h : s.Inv) : (resetState s).Inv :=
  { h with
    memCanonical := Memory.wf_ofWords 0 s.program
    memBelowExtent := fun _ he => by simpa using (Memory.mem_ofWords he).2.1
    memWords := fun e he => h.programWords e.2 (Memory.mem_ofWords he).2.2
    extentFits := h.programFits
    ipWord := h.zeroWord
    rbWord := h.zeroWord
    frWord := nofun }

/-- A checked write of a Word keeps the invariant (R45). -/
theorem State.Inv.memWrite {s : State} (h : s.Inv) {d : Int} {v : Word} (h0 : 0 ≤ d)
    (hc : s.cfg.atCap d = false) (hv : s.cfg.inWord v = true) : (memWrite s d.toNat v).Inv :=
  { h with
    memCanonical := Memory.wf_write h.memCanonical d.toNat v
    memBelowExtent := fun e he => by
      rw [memWrite_extent]
      rcases Memory.mem_write he with rfl | he
      · dsimp only; split <;> omega
      · have := h.memBelowExtent e he
        split <;> omega
    memWords := fun e he => by
      rcases Memory.mem_write he with rfl | he
      · exact hv
      · exact h.memWords e he
    extentFits := by
      rw [memWrite_extent]
      split
      · exact Config.fits_succ_of_not_atCap h0 hc
      · exact h.extentFits }

/-! ### The queues (R29) -/

theorem allWords_append_singleton {c : Config} {q : List Word} {v : Word} (hq : allWords c q)
    (hv : c.inWord v = true) : allWords c (q ++ [v]) := by
  simpa [allWords, or_imp, forall_and] using ⟨hq, hv⟩

/-- A queue that is within its capacity and not full has room for one more entry. -/
theorem withinCap_append_singleton {cap : Option Nat} {q : List Word} (v : Word)
    (hq : withinCap cap q.length) (hf : (cap == some q.length) = false) :
    withinCap cap (q ++ [v]).length := by
  rintro m rfl
  have hle := hq m rfl
  have hne : m ≠ q.length := by simpa using hf
  simp only [List.length_append, List.length_singleton]
  omega

theorem State.Inv.pushInq {s : State} (h : s.Inv) {v : Word} (hv : s.cfg.inWord v = true)
    (hf : (s.cfg.inCap == some s.inq.length) = false) : State.Inv { s with inq := s.inq ++ [v] } :=
  { h with
    inqWords := allWords_append_singleton h.inqWords hv
    inqFits := withinCap_append_singleton v h.inqFits hf }

theorem State.Inv.pushOutq {s : State} (h : s.Inv) {v : Word} (hv : s.cfg.inWord v = true)
    (hf : (s.cfg.outCap == some s.outq.length) = false) : State.Inv { s with outq := s.outq ++ [v] } :=
  { h with
    outqWords := allWords_append_singleton h.outqWords hv
    outqFits := withinCap_append_singleton v h.outqFits hf }

theorem State.Inv.popInq {s : State} (h : s.Inv) {v : Word} {q : List Word} (hq : s.inq = v :: q) :
    State.Inv { s with inq := q } :=
  { h with
    inqWords := fun x hx => h.inqWords x (by simp [hq, hx])
    inqFits := fun m hm => by
      have := h.inqFits m hm
      simp only [hq, List.length_cons] at this
      dsimp only; omega }

theorem State.Inv.popOutq {s : State} (h : s.Inv) {v : Word} {q : List Word} (hq : s.outq = v :: q) :
    State.Inv { s with outq := q } :=
  { h with
    outqWords := fun x hx => h.outqWords x (by simp [hq, hx])
    outqFits := fun m hm => by
      have := h.outqFits m hm
      simp only [hq, List.length_cons] at this
      dsimp only; omega }

/-! ### Values read under the invariant are Words -/

theorem State.Inv.memRead_inWord {s : State} (h : s.Inv) (a : Nat) : s.cfg.inWord (memRead s a) = true := by
  by_cases h0 : s.mem.read a = 0
  · rw [memRead, h0]; exact h.zeroWord
  · exact h.memWords _ (Memory.read_mem h0)

theorem State.Inv.readParam_inWord {s : State} (h : s.Inv) {p : Param} {v : Word}
    (hp : s.cfg.inWord p.raw = true) (hr : readParam p s = .ok v) : s.cfg.inWord v = true := by
  rcases readParam_cases p s with ⟨-, h'⟩ | ⟨-, -, h'⟩ | ⟨-, -, h'⟩ <;> rw [h'] at hr <;> cases hr
  · exact hp
  · exact h.memRead_inWord _

/-- The parameters of an assembled instruction, one per role of its row (R60, R70). -/
theorem params_assemble (op : Opcode) (M : Nat) (raws : List Word) :
    (assemble op M raws).params = (List.range op.roles.length).map (paramAt M raws) := by
  cases op <;> rfl

theorem eq_assemble_of_decode {ws rest : List Word} {i : Instr} (h : decode ws = .ok (i, rest)) :
    ∃ op M, i = assemble op M ws.tail := by
  unfold decode at h
  split at h
  · cases h
  · cases h
    exact ⟨_, _, rfl⟩

/-- A fetched instruction is assembled from the words at IP. -/
theorem eq_assemble_of_fetchInstr {s : State} {i : Instr} (h : fetchInstr s = .ok i) :
    ∃ op M, i = assemble op M (instrWords s).tail := by
  unfold fetchInstr at h
  rw [if_neg (not_lt.2 (ip_of_fetchInstr_ok h))] at h
  split at h
  · cases h
  · rename_i hd
    cases h
    exact eq_assemble_of_decode hd

theorem State.Inv.instrWords_inWord {s : State} (h : s.Inv) : allWords s.cfg (instrWords s) := by
  intro v hv
  rw [instrWords, readWords_eq_map, List.mem_map] at hv
  obtain ⟨k, -, rfl⟩ := hv
  exact h.memRead_inWord _

/-- The raw operands of a fetched instruction are Words: they are read from memory (R66). -/
theorem State.Inv.fetched_raw_inWord {s : State} (h : s.Inv) {i : Instr} (hf : fetchInstr s = .ok i)
    {p : Param} (hp : p ∈ i.params) : s.cfg.inWord p.raw = true := by
  obtain ⟨op, M, rfl⟩ := eq_assemble_of_fetchInstr hf
  rw [params_assemble, List.mem_map] at hp
  obtain ⟨j, -, rfl⟩ := hp
  change s.cfg.inWord ((instrWords s).tail.getD j 0) = true
  rw [List.getD_eq_getElem?_getD]
  cases hj : (instrWords s).tail[j]? with
  | none => exact h.zeroWord
  | some w => exact h.instrWords_inWord w (List.mem_of_mem_tail (List.mem_of_getElem? hj))

/-! ### The invariant and the parameters along a step (R73 to R78) -/

theorem Committed.cfg_eq {i : Instr} {s t : State} {r : StepResult} (h : Committed i s t r) :
    t.cfg = s.cfg := by
  cases h <;> rfl

/-- Each shape a commit can have keeps the invariant, for an instruction that was fetched. -/
theorem Committed.inv {i : Instr} {s t : State} {r : StepResult} (hc : Committed i s t r) (h : s.Inv)
    (hf : fetchInstr s = .ok i) : t.Inv := by
  have hraw : ∀ p ∈ i.params, s.cfg.inWord p.raw = true := fun p => h.fetched_raw_inWord hf
  have hadvance : s.cfg.aboveMax (s.ip + i.opcode.stride) = false →
      s.cfg.inWord (s.ip + i.opcode.stride) = true := fun hip =>
    Config.inWord_of_nonneg (add_nonneg (ip_of_fetchInstr_ok hf) (Int.natCast_nonneg _)) hip
  cases hc with
  | fault k => exact h.takeFault k
  | store p0 p1 p2 d v hi hw h0 hcap hv hip =>
    have hword : s.cfg.inWord v = true := hv.elim id (Config.inWord_of_bit h.cfgLegal)
    exact (h.memWrite h0 hcap hword).setIp (hadvance hip)
  | input p d v q hi hq hw h0 hcap hip =>
    have hword : s.cfg.inWord v = true := h.inqWords v (by simp [hq])
    exact ((h.memWrite h0 hcap hword).popInq hq).setIp (hadvance hip)
  | inputHold p hi hq => exact h
  | output p v hi hr hfull hip =>
    have hword : s.cfg.inWord v = true := h.readParam_inWord (hraw p (by simp [hi, Instr.params])) hr
    exact (h.pushOutq hword hfull).setIp (hadvance hip)
  | outputHold p hi hfull => exact h
  | jump p0 p1 t hi hr =>
    have hmem : p1 ∈ i.params := by rcases hi with rfl | rfl <;> simp [Instr.params]
    exact h.setIp (h.readParam_inWord (hraw p1 hmem) hr)
  | noJump p0 p1 hi hip => exact h.setIp (hadvance hip)
  | base p v hi hr hw hip => exact (h.setRb hw).setIp (hadvance hip)
  | halt hi => exact h.setHalted true

theorem stepResponse_cfg (s : State) : (stepResponse s).1.cfg = s.cfg := by
  rcases stepResponse_committed s with ⟨r, -, h⟩ | ⟨-, -, h⟩ | ⟨k, -, -, -, h⟩ | ⟨i, -, -, -, h⟩
  · rw [h]
  · rw [h]; rfl
  · rw [h]; rfl
  · exact h.cfg_eq

theorem State.Inv.stepResponse {s : State} (h : s.Inv) : (stepResponse s).1.Inv := by
  rcases stepResponse_committed s with ⟨r, -, h'⟩ | ⟨-, -, h'⟩ | ⟨k, -, -, -, h'⟩ | ⟨i, -, -, hf, h'⟩
  · rw [h']; exact h
  · rw [h']; exact h.takeFault _
  · rw [h']; exact h.takeFault _
  · exact h'.inv h hf

/-! ### What every command keeps (50_host_interface.md R200 to R218) -/

/-- A property of states that a step, LOAD, RESET and the four queue ports keep. The commands are made of
these operations (`KeptByOperations.returns`), so it is a property that every command keeps. -/
structure KeptByOperations (P : State → Prop) : Prop where
  step : ∀ {s}, P s → P (stepResponse s).1
  load : ∀ text {s}, P s → P (loadCommand text s).1
  reset : ∀ {s}, P s → P (resetState s)
  inPush : ∀ v {s}, P s → P (inPushCommand v s).1
  inPop : ∀ {s}, P s → P (inPopCommand s).1
  outPush : ∀ v {s}, P s → P (outPushCommand v s).1
  outPop : ∀ {s}, P s → P (outPopCommand s).1

/-- A run with a budget left either goes on from the state of its next step or ends in it. -/
theorem runUntilComplete_succ_fst (n : Nat) (s : State) :
    (runUntilComplete (n + 1) s).1 = (runUntilComplete n (stepResponse s).1).1 ∨
    (runUntilComplete (n + 1) s).1 = (stepResponse s).1 := by
  by_cases hc : (stepResponse s).2 = .continued
  · exact .inl (by rw [runUntilComplete_continued hc])
  by_cases hh : (stepResponse s).2 = .halted
  · exact .inr (by rw [runUntilComplete_halted hh])
  · exact .inr (by rw [runUntilComplete_result rfl hc hh])

/-- A run with a budget left goes on from the state of its next step, or ends in it, there with the oldest
entry of OUTQ popped after a committed OUT. -/
theorem runUntilOutput_succ_fst (n : Nat) (s : State) :
    (runUntilOutput (n + 1) s).1 = (runUntilOutput n (stepResponse s).1).1 ∨
    (runUntilOutput (n + 1) s).1 = (outPopCommand (stepResponse s).1).1 ∨
    (runUntilOutput (n + 1) s).1 = (stepResponse s).1 := by
  by_cases hc : (stepResponse s).2 = .continued
  · cases ho : nextIsOut s
    · exact .inl (by rw [runUntilOutput_continued hc ho])
    · exact .inr (.inl (by rw [runUntilOutput_out hc ho]))
  by_cases hh : (stepResponse s).2 = .halted
  · exact .inr (.inr (by rw [runUntilOutput_halted hh]))
  · exact .inr (.inr (by rw [runUntilOutput_result rfl hc hh]))

theorem KeptByOperations.runUntilComplete {P : State → Prop} (hP : KeptByOperations P) (n : Nat) {s : State}
    (h : P s) : P (runUntilComplete n s).1 := by
  induction n generalizing s with
  | zero => exact h
  | succ n ih =>
    rcases runUntilComplete_succ_fst n s with he | he <;> rw [he]
    · exact ih (hP.step h)
    · exact hP.step h

theorem KeptByOperations.runUntilOutput {P : State → Prop} (hP : KeptByOperations P) (n : Nat) {s : State}
    (h : P s) : P (runUntilOutput n s).1 := by
  induction n generalizing s with
  | zero => exact h
  | succ n ih =>
    rcases runUntilOutput_succ_fst n s with he | he | he <;> rw [he]
    · exact ih (hP.step h)
    · exact hP.outPop (hP.step h)
    · exact hP.step h

/-- An unbounded run that returns has returned what a run with a finite budget does. -/
theorem eq_of_unbounded_eq_some {run : Nat → State → State × Response} {fuel : Nat} {s : State}
    {x : State × Response} (h : unbounded run fuel s = some x) : run fuel s = x := by
  unfold unbounded at h
  split at h
  · cases h
  · exact Option.some.inj h

/-- A command that returns keeps what the operations keep. -/
theorem KeptByOperations.returns {P : State → Prop} (hP : KeptByOperations P) {cmd : Command} {s t : State}
    {r : Response} (hr : Returns cmd s t r) (h : P s) : P t := by
  obtain ⟨fuel, hr⟩ := hr
  obtain ⟨x, hx, rfl⟩ : ∃ x, command fuel cmd s = some x ∧ x.1 = t := ⟨_, hr, rfl⟩
  cases cmd with
  | runUntilComplete b =>
    cases b with
    | none => rw [← eq_of_unbounded_eq_some hx]; exact hP.runUntilComplete fuel h
    | some b => cases hx; exact hP.runUntilComplete b h
  | runUntilOutput b =>
    cases b with
    | none => rw [← eq_of_unbounded_eq_some hx]; exact hP.runUntilOutput fuel h
    | some b => cases hx; exact hP.runUntilOutput b h
  | load text => cases hx; exact hP.load text h
  | reset => cases hx; exact hP.reset h
  | step => cases hx; exact hP.step h
  | inPush v => cases hx; exact hP.inPush v h
  | inPop => cases hx; exact hP.inPop h
  | outPush v => cases hx; exact hP.outPush v h
  | outPop => cases hx; exact hP.outPop h
  | peek a => cases hx; exact h
  | snapshot => cases hx; exact h
  | readReg n => cases hx; exact h

/-! ### What LOAD and the queue ports can leave (R200, R210 to R213) -/

/-- A program that LOAD accepts holds Words and is no longer than CAP (R201). -/
theorem parseProgram_eq_some {c : Config} {text : List Char} {ws : List Word}
    (h : parseProgram c text = some ws) : allWords c ws ∧ c.fits ws.length = true := by
  unfold parseProgram at h
  split at h
  · cases h
  · split at h
    · rename_i hok
      cases h
      simpa [allWords] using hok
    · cases h

theorem loadCommand_fst_cases (text : List Char) (s : State) :
    (loadCommand text s).1 = s ∨
    ∃ ws, allWords s.cfg ws ∧ s.cfg.fits ws.length = true ∧
      (loadCommand text s).1 = resetState { s with program := ws } := by
  unfold loadCommand
  cases hp : parseProgram s.cfg text with
  | none => exact .inl rfl
  | some ws =>
    obtain ⟨hw, hf⟩ := parseProgram_eq_some hp
    exact .inr ⟨ws, hw, hf, rfl⟩

theorem inPushCommand_fst_cases (v : Int) (s : State) :
    (inPushCommand v s).1 = s ∨
    (s.cfg.inWord v = true ∧ (s.cfg.inCap == some s.inq.length) = false ∧
      (inPushCommand v s).1 = { s with inq := s.inq ++ [v] }) := by
  unfold inPushCommand
  split
  · rename_i hv
    split
    · exact .inl rfl
    · rename_i hf
      exact .inr ⟨hv, by simpa using hf, rfl⟩
  · exact .inl rfl

theorem outPushCommand_fst_cases (v : Int) (s : State) :
    (outPushCommand v s).1 = s ∨
    (s.cfg.inWord v = true ∧ (s.cfg.outCap == some s.outq.length) = false ∧
      (outPushCommand v s).1 = { s with outq := s.outq ++ [v] }) := by
  unfold outPushCommand
  split
  · rename_i hv
    split
    · exact .inl rfl
    · rename_i hf
      exact .inr ⟨hv, by simpa using hf, rfl⟩
  · exact .inl rfl

theorem inPopCommand_fst_cases (s : State) :
    (inPopCommand s).1 = s ∨ ∃ v q, s.inq = v :: q ∧ (inPopCommand s).1 = { s with inq := q } := by
  unfold inPopCommand
  rcases s.inq with _ | ⟨v, q⟩
  · exact .inl rfl
  · exact .inr ⟨v, q, rfl, rfl⟩

theorem outPopCommand_fst_cases (s : State) :
    (outPopCommand s).1 = s ∨ ∃ v q, s.outq = v :: q ∧ (outPopCommand s).1 = { s with outq := q } := by
  unfold outPopCommand
  rcases s.outq with _ | ⟨v, q⟩
  · exact .inl rfl
  · exact .inr ⟨v, q, rfl, rfl⟩

/-! ### The invariant and the parameters along commands -/

theorem inv_keptByOperations : KeptByOperations State.Inv where
  step h := h.stepResponse
  reset h := h.resetState
  load text s h := by
    rcases loadCommand_fst_cases text s with he | ⟨ws, hw, hf, he⟩ <;> rw [he]
    · exact h
    · exact (h.setProgram hw hf).resetState
  inPush v s h := by
    rcases inPushCommand_fst_cases v s with he | ⟨hv, hf, he⟩ <;> rw [he]
    · exact h
    · exact h.pushInq hv hf
  outPush v s h := by
    rcases outPushCommand_fst_cases v s with he | ⟨hv, hf, he⟩ <;> rw [he]
    · exact h
    · exact h.pushOutq hv hf
  inPop {s} h := by
    rcases inPopCommand_fst_cases s with he | ⟨v, q, hq, he⟩ <;> rw [he]
    · exact h
    · exact h.popInq hq
  outPop {s} h := by
    rcases outPopCommand_fst_cases s with he | ⟨v, q, hq, he⟩ <;> rw [he]
    · exact h
    · exact h.popOutq hq

theorem cfg_keptByOperations (c : Config) : KeptByOperations (·.cfg = c) where
  step {s} h := (stepResponse_cfg s).trans h
  reset h := h
  load text s h := by rcases loadCommand_fst_cases text s with he | ⟨ws, -, -, he⟩ <;> rw [he] <;> exact h
  inPush v s h := by rcases inPushCommand_fst_cases v s with he | ⟨-, -, he⟩ <;> rw [he] <;> exact h
  outPush v s h := by rcases outPushCommand_fst_cases v s with he | ⟨-, -, he⟩ <;> rw [he] <;> exact h
  inPop {s} h := by rcases inPopCommand_fst_cases s with he | ⟨v, q, -, he⟩ <;> rw [he] <;> exact h
  outPop {s} h := by rcases outPopCommand_fst_cases s with he | ⟨v, q, -, he⟩ <;> rw [he] <;> exact h

/-- Power-on meets the invariant for all parameters that R4 admits (R33, R270). -/
theorem inv_powerOn {c : Config} (hc : c.legal = true) : State.Inv { State.reset with cfg := c } :=
  have hzero : c.inWord 0 = true := Config.inWord_of_bit hc (.inl rfl)
  { cfgLegal := hc
    memCanonical := rfl
    memBelowExtent := nofun
    memWords := nofun
    extentFits := c.fits_zero
    programWords := nofun
    programFits := c.fits_zero
    ipWord := hzero
    rbWord := hzero
    frWord := nofun
    inqWords := nofun
    outqWords := nofun
    inqFits := fun _ _ => Nat.zero_le _
    outqFits := fun _ _ => Nat.zero_le _ }

/-- What power-on has and every operation keeps holds of every reachable state. -/
theorem KeptByOperations.reachable {P : State → Prop} (hP : KeptByOperations P) {c : Config} {s : State}
    (hr : Reachable c s) (h0 : P { State.reset with cfg := c }) : P s := by
  induction hr with
  | powerOn => exact h0
  | after _ hret ih => exact hP.returns hret ih

/-- Settles O45, by induction over the commands, for the invariant and for the parameters. -/
theorem reachableStatesMeetTheInvariant : Obligations.ReachableStatesMeetTheInvariant := fun c _ hc hr =>
  ⟨inv_keptByOperations.reachable hr (inv_powerOn hc), (cfg_keptByOperations c).reachable hr rfl⟩

end Sys2Proof.Machine

/-! ### A step by its state alone (30_encoding.md R77, R78) -/

namespace Sys2Proof.Machine

/-- `step` and `stepResponse` branch alike, so a step answers the state its response goes with. -/
theorem step_eq_next_stepResponse (s : State) : step s = .next (stepResponse s).1 := by
  unfold step stepResponse
  cases s.fr with
  | some r => rfl
  | none =>
    cases s.halted with
    | true => rfl
    | false =>
      cases fetchInstr s with
      | error k => rfl
      | ok i => exact exec_eq_commit i s

/-- What a step can leave: the state as it was, a fault taken, or what the fetched instruction commits. -/
theorem step_cases {s t : State} (h : step s = .next t) :
    t = s ∨ (∃ k, t = takeFault k s) ∨ ∃ i r, fetchInstr s = .ok i ∧ Committed i s t r := by
  rw [step_eq_next_stepResponse] at h
  cases h
  rcases stepResponse_committed s with ⟨r, -, h⟩ | ⟨-, -, h⟩ | ⟨k, -, -, -, h⟩ | ⟨i, -, -, hf, h⟩
  · exact .inl (by rw [h])
  · exact .inr (.inl ⟨_, by rw [h, faulted_fst]⟩)
  · exact .inr (.inl ⟨k, by rw [h, faulted_fst]⟩)
  · exact .inr (.inr ⟨i, _, hf, h⟩)

/-- Settles O43: a step leaves the state of its response, which has the invariant. -/
theorem stepKeepsTheInvariant : Obligations.StepKeepsTheInvariant := by
  intro s t hinv h
  rw [step_eq_next_stepResponse] at h
  cases h
  exact hinv.stepResponse

/-- Settles O42: the parameters at power-on are legal. -/
theorem powerOnMeetsTheInvariant : Obligations.PowerOnMeetsTheInvariant :=
  inv_powerOn (c := Config.default) (by decide)

/-! ### Memory around EXTENT and around a write (R27, R44, R45) -/

/-- An EXTENT within CAP is at most every address at or above CAP (R45). -/
theorem le_of_fits_of_atCap {c : Config} {n a : Nat} (hn : c.fits n = true) (ha : c.atCap a = true) :
    n ≤ a := by
  unfold Config.fits Config.atCap at *
  cases hcap : c.cap with
  | none => simp [hcap] at ha
  | some m => simp only [hcap, decide_eq_true_eq] at hn ha; omega

theorem State.Inv.memRead_eq_zero {s : State} (h : s.Inv) {a : Nat} (ha : s.extent ≤ a) : memRead s a = 0 :=
  Memory.read_eq_zero fun e he => ((h.memBelowExtent e he).trans_le ha).ne

/-- Settles O7: no cell is listed at or beyond EXTENT, and EXTENT is at most CAP. -/
theorem readsBeyondExtentGiveZero : Obligations.ReadsBeyondExtentGiveZero := fun _ _ hinv =>
  ⟨hinv.memRead_eq_zero, fun ha => hinv.memRead_eq_zero (le_of_fits_of_atCap hinv.extentFits ha)⟩

theorem extent_le_memWrite (s : State) (a : Nat) (v : Word) : s.extent ≤ (memWrite s a v).extent := by
  rw [memWrite_extent]
  split <;> omega

theorem memWrite_extent_eq_max (s : State) {d : Int} (v : Word) (h0 : 0 ≤ d) :
    ((memWrite s d.toNat v).extent : Int) = max (s.extent : Int) (d + 1) := by
  rw [memWrite_extent]
  split <;> omega

theorem memRead_memWrite_of_ne (s : State) {d : Int} (v : Word) (h0 : 0 ≤ d) {a : Nat} (ha : (a : Int) ≠ d) :
    memRead (memWrite s d.toNat v) a = memRead s a := by
  have hne : a ≠ d.toNat := by omega
  rw [memRead, memWrite_mem, Memory.read_write, if_neg hne, memRead]

/-! ### Frames of the instructions (R100, R101, R120, R121, R140, R141, R160, R161, R180, R190)

A shape of `Committed` names the instructions it comes from, so a shape of another instruction is refuted by
its equation for `i`: those are the cases that `grind` closes below. -/

/-- Settles O22: of the ten shapes of a commit only the fault and the store are of these instructions. -/
theorem storingInstructionsFrame : Obligations.StoringInstructionsFrame := by
  intro i s t p0 p1 p2 hi h
  obtain ⟨r, hc⟩ := exec_cases h
  cases hc with
  | fault k => exact .inl ⟨k, rfl⟩
  | store q0 q1 q2 d v hi' hw h0 =>
    obtain rfl : q2 = p2 := by grind
    exact .inr ⟨d, hw, h0, rfl, rfl, rfl, rfl, rfl, rfl, rfl, memWrite_extent_eq_max s v h0,
      fun a ha => memRead_memWrite_of_ne s v h0 ha⟩
  | _ => grind

/-- Settles O23: IN commits a fault, its hold, or the store of the head it pops. -/
theorem inputInstructionFrame : Obligations.InputInstructionFrame := by
  intro s t p h
  obtain ⟨r, hc⟩ := exec_cases h
  cases hc with
  | fault k => exact .inl ⟨k, rfl⟩
  | inputHold q hi hq => exact .inr (.inl ⟨hq, rfl⟩)
  | input q d v rest hi hq hw h0 =>
    cases hi
    exact .inr (.inr ⟨d, hw, h0, rfl, rfl, rfl, rfl, rfl, ⟨v, hq⟩, rfl, memWrite_extent_eq_max s v h0,
      fun a ha => memRead_memWrite_of_ne s v h0 ha⟩)
  | _ => grind

/-- Settles O24: OUT commits a fault, its hold, or the push of the value it reads. -/
theorem outputInstructionFrame : Obligations.OutputInstructionFrame := by
  intro s t p h
  obtain ⟨r, hc⟩ := exec_cases h
  cases hc with
  | fault k => exact .inl ⟨k, rfl⟩
  | outputHold q hi hf => exact .inr (.inl ⟨by simpa [outputFull] using hf, rfl⟩)
  | output q v hi hr =>
    cases hi
    exact .inr (.inr ⟨⟨v, hr, rfl⟩, rfl, fun _ => rfl⟩)
  | _ => grind

/-- Settles O25: a jump, taken or not, commits a fault or a new IP. -/
theorem jumpInstructionsFrame : Obligations.JumpInstructionsFrame := by
  intro i s t p0 p1 hi h
  obtain ⟨r, hc⟩ := exec_cases h
  cases hc with
  | fault k => exact .inl ⟨k, rfl⟩
  | jump | noJump => exact .inr ⟨rfl, fun _ => rfl⟩
  | _ => grind

theorem exec_halt (s : State) : exec .halt s = .next { s with halted := true } := rfl

/-- Settles O26: ARB commits a fault or a new RB and IP; HALT has one answer. -/
theorem baseAndHaltInstructionsFrame : Obligations.BaseAndHaltInstructionsFrame := by
  refine ⟨fun s t p h => ?_, fun s t h => ?_⟩
  · obtain ⟨r, hc⟩ := exec_cases h
    cases hc with
    | fault k => exact .inl ⟨k, rfl⟩
    | base => exact .inr ⟨rfl, fun _ => rfl⟩
    | _ => grind
  · rw [exec_halt] at h
    cases h
    exact ⟨rfl, fun _ => rfl⟩

/-! ### What a commit can change of the state (R23, R24, R28, R29, R45) -/

section

variable {i : Instr} {s t : State} {r : StepResult}

theorem Committed.eq_halt_of_halted (h : Committed i s t r) (ht : t.halted = true) :
    s.halted = true ∨ (i = .halt ∧ t = { s with halted := true }) := by
  cases h with
  | halt hi => exact .inr ⟨hi, rfl⟩
  | _ => exact .inl ht

theorem Committed.halted_of_halted (h : Committed i s t r) (hs : s.halted = true) : t.halted = true := by
  cases h with
  | halt => rfl
  | _ => exact hs

theorem Committed.eq_halt_of_response (h : Committed i s t r) (hr : r = .halted) : i = .halt := by
  cases h with
  | halt hi => exact hi
  | _ => cases hr

theorem Committed.rb_cases (h : Committed i s t r) :
    t.rb = s.rb ∨ ∃ p v, i = .arb p ∧ readParam p s = .ok v ∧ t.rb = s.rb + v := by
  cases h with
  | base p v hi hr => exact .inr ⟨p, v, hi, hr, rfl⟩
  | _ => exact .inl rfl

theorem Committed.inq_cases (h : Committed i s t r) :
    t.inq = s.inq ∨ ∃ p v, i = .inp p ∧ s.inq = v :: t.inq := by
  cases h with
  | input p d v q hi hq => exact .inr ⟨p, v, hi, hq⟩
  | _ => exact .inl rfl

theorem Committed.outq_cases (h : Committed i s t r) :
    t.outq = s.outq ∨ ∃ p v, i = .out p ∧ readParam p s = .ok v ∧ t.outq = s.outq ++ [v] := by
  cases h with
  | output p v hi hr => exact .inr ⟨p, v, hi, hr, rfl⟩
  | _ => exact .inl rfl

theorem Committed.program_eq (h : Committed i s t r) : t.program = s.program := by
  cases h <;> rfl

theorem Committed.extent_le (h : Committed i s t r) : s.extent ≤ t.extent := by
  cases h with
  | store _ _ _ d v => exact extent_le_memWrite s d.toNat v
  | input _ d v => exact extent_le_memWrite s d.toNat v
  | _ => exact le_rfl

end

/-! ### What a step can change of the state -/

/-- A step answers HALTED exactly when it reaches HALT: a fault is recorded or answered in every other branch. -/
theorem stepResponse_halted_iff (s : State) :
    (stepResponse s).2 = .halted ↔ s.fr = none ∧ s.halted = false ∧ fetchInstr s = .ok .halt := by
  constructor
  · intro hr
    rcases stepResponse_committed s with ⟨r, -, h⟩ | ⟨-, -, h⟩ | ⟨k, -, -, -, h⟩ | ⟨i, hfr, hh, hf, h⟩
    · rw [h] at hr; cases hr
    · rw [h] at hr; cases hr
    · rw [h] at hr; cases hr
    · obtain rfl := h.eq_halt_of_response hr
      exact ⟨hfr, hh, hf⟩
  · rintro ⟨hfr, hh, hf⟩
    simp [stepResponse, hfr, hh, hf, outcomeOf, outcomeHalt, commit]

/-- Settles O35, by the branches of a step: only HALT's commit touches HALTED. -/
theorem onlyHaltSetsHalted : Obligations.OnlyHaltSetsHalted := by
  intro s t h
  rcases step_cases h with rfl | ⟨k, rfl⟩ | ⟨i, r, hf, hc⟩
  · exact ⟨.inl, id, stepResponse_halted_iff t⟩
  · exact ⟨.inl, id, stepResponse_halted_iff s⟩
  · refine ⟨fun ht => ?_, hc.halted_of_halted, stepResponse_halted_iff s⟩
    rcases hc.eq_halt_of_halted ht with hs | ⟨rfl, ht⟩
    · exact .inl hs
    · exact .inr ⟨hf, ht⟩

/-- Settles O36, by the branches of a step: only ARB's commit touches RB. -/
theorem onlyArbChangesTheRelativeBase : Obligations.OnlyArbChangesTheRelativeBase := by
  intro s t h hne
  rcases step_cases h with rfl | ⟨k, rfl⟩ | ⟨i, r, hf, hc⟩
  · exact absurd rfl hne
  · exact absurd rfl hne
  · rcases hc.rb_cases with heq | ⟨p, v, rfl, hr, hrb⟩
    · exact absurd heq hne
    · exact ⟨p, v, hf, hr, hrb⟩

/-- Settles O37, by the branches of a step: only IN's commit touches INQ, and only OUT's touches OUTQ. -/
theorem queuesMoveOnlyThroughInAndOut : Obligations.QueuesMoveOnlyThroughInAndOut := by
  intro s t h
  rcases step_cases h with rfl | ⟨k, rfl⟩ | ⟨i, r, hf, hc⟩
  · exact ⟨.inl rfl, .inl rfl⟩
  · exact ⟨.inl rfl, .inl rfl⟩
  · constructor
    · rcases hc.inq_cases with heq | ⟨p, v, rfl, hq⟩
      · exact .inl heq
      · exact .inr ⟨p, v, hf, hq⟩
    · rcases hc.outq_cases with heq | ⟨p, v, rfl, hr, hq⟩
      · exact .inl heq
      · exact .inr ⟨p, v, hf, hr, hq⟩

/-- Settles O38, by the branches of a step. -/
theorem stepKeepsProgramAndNeverShrinksMemory : Obligations.StepKeepsProgramAndNeverShrinksMemory := by
  intro s t h
  rcases step_cases h with rfl | ⟨k, rfl⟩ | ⟨i, r, -, hc⟩
  · exact ⟨rfl, rfl, le_rfl⟩
  · exact ⟨rfl, rfl, le_rfl⟩
  · exact ⟨hc.program_eq, hc.cfg_eq, hc.extent_le⟩

/-! ### What the host reads of the state (10_state.md R30, R31; 60_exceptions.md R240) -/

theorem faultCode_le (k : FaultKind) : faultCode k ≤ 6 := by cases k <;> decide

theorem faultField_le (s : State) : faultField s ≤ 6 := by
  unfold faultField
  split
  · exact Nat.zero_le 6
  · exact faultCode_le _

/-- STATUS is HALTED in its lowest bit and FKIND above it, so it is at most 1 + 2 * 6. -/
theorem statusRegister_fields (s : State) :
    statusRegister s % 2 = s.halted.toNat ∧ statusRegister s / 2 = faultField s ∧
      0 ≤ statusRegister s ∧ statusRegister s < 14 := by
  have hfield := faultField_le s
  cases hh : s.halted
  · simp only [statusRegister, hh, Word, Bool.toNat_false, Bool.false_eq_true, if_false]
    omega
  · simp only [statusRegister, hh, Word, Bool.toNat_true, if_true]
    omega

theorem hostRegister_eq_none {n : Nat} (h : 7 ≤ n) (s : State) : hostRegister s n = none := by
  obtain ⟨k, rfl⟩ := Nat.exists_eq_add_of_le' h
  rfl

/-- Settles O53, field by field. -/
theorem hostRegisterMap : Obligations.HostRegisterMap := by
  intro s
  obtain ⟨hhalted, hfield, hlo, hhi⟩ := statusRegister_fields s
  refine ⟨rfl, rfl, rfl, ?_, fun hfr => ?_, fun r hfr => ?_, rfl, rfl, rfl, rfl, rfl, rfl, hlo, hhi,
    fun r hfr => ?_, fun hfr => ?_, rfl, rfl, rfl, fun _ hn => hostRegister_eq_none hn s⟩
  · rw [hhalted]; cases s.halted <;> decide
  · rw [hfield, faultField, hfr]; rfl
  · rw [hfield, faultField, hfr]
  · rw [hostRegister, faultIpRegister, hfr]
  · rw [hostRegister, faultIpRegister, hfr]

/-- Settles O54, by whether a fault is recorded and then by HALTED. -/
theorem runStatesAreDerived : Obligations.RunStatesAreDerived := by
  intro s
  unfold runState
  cases s.fr with
  | some r => simp
  | none => cases s.halted <;> simp

end Sys2Proof.Machine

/-! ### What a write leaves to be read, and the write capacity (20_memory.md R45) -/

namespace Sys2Proof

theorem halfRange_sub_one_cast (w : Nat) : ((halfRange w - 1 : Nat) : Int) = (2 : Int) ^ (w - 1) - 1 := by
  rw [halfRange, Nat.cast_sub Nat.one_le_two_pow]
  simp

/-- CAP is the smaller of two bounds, so an address reaches it exactly when it reaches one of them (R45). -/
theorem Config.atCap_iff (c : Config) (d : Int) :
    c.atCap d = true ↔ (∃ m, c.memWords = some m ∧ (m : Int) ≤ d) ∨
      ∃ w, c.wordBits = some w ∧ (2 : Int) ^ (w - 1) - 1 ≤ d := by
  unfold Config.atCap Config.cap
  cases c.memWords <;> cases c.wordBits <;> simp [minBound, halfRange_sub_one_cast]

/-- CAP is at most WMAX (R45). -/
theorem Config.le_wmax_of_fits {c : Config} {n w : Nat} (h : c.fits n = true) (hw : c.wordBits = some w) :
    (n : Int) ≤ (2 : Int) ^ (w - 1) - 1 := by
  rw [← halfRange_sub_one_cast, Nat.cast_le]
  unfold Config.fits Config.cap at h
  cases hm : c.memWords <;> simp only [hm, hw, minBound, Option.map_some, decide_eq_true_eq] at h <;> omega

theorem Config.inWord_of_fits {c : Config} {n : Nat} (h : c.fits n = true) : c.inWord n = true := by
  cases hw : c.wordBits with
  | none => exact Config.inWord_of_unbounded hw n
  | some w =>
    have hmin : (0 : Int) < 2 ^ (w - 1) := by positivity
    have hmax := Config.le_wmax_of_fits h hw
    rw [Config.inWord_iff_of_width hw]
    omega

end Sys2Proof

namespace Sys2Proof.Machine

/-- The read rule of a write, for both addresses. -/
theorem memRead_memWrite (s : State) (a : Nat) (v : Word) (x : Nat) :
    memRead (memWrite s a v) x = if x = a then v else memRead s x :=
  Memory.read_write s.mem a v x

theorem checkWriteAddr_of_neg (c : Config) {d : Int} (h : d < 0) :
    checkWriteAddr c d = .error .invalidAddress := by
  simp [checkWriteAddr, h]

theorem checkWriteAddr_of_nonneg (c : Config) {d : Int} (h : 0 ≤ d) :
    checkWriteAddr c d = if c.atCap d then .error .capacityExceeded else .ok d.toNat := by
  rw [checkWriteAddr, if_neg (not_lt.2 h)]

/-- Settles O8: the read rule of a write, its EXTENT, and the three answers of the check. -/
theorem writesGrowExtentAndAreChecked : Obligations.WritesGrowExtentAndAreChecked := by
  refine ⟨fun s a v => ⟨?_, fun x hx => ?_, fun ha => ?_, fun ha => ?_, fun hinv x hx hxa => ?_,
    fun hinv => Config.inWord_of_fits hinv.extentFits⟩, fun c d => ⟨c.atCap_iff d,
    checkWriteAddr_of_neg c, fun h0 hc => ?_, fun h0 hc => ?_⟩⟩
  · rw [memRead_memWrite, if_pos rfl]
  · rw [memRead_memWrite, if_neg hx]
  · rw [memWrite_extent, if_pos ha]
  · rw [memWrite_extent, if_neg (not_le.2 ha)]
  · rw [memRead_memWrite, if_neg hxa.ne, hinv.memRead_eq_zero hx]
  · rw [checkWriteAddr_of_nonneg c h0, if_pos hc]
  · rw [checkWriteAddr_of_nonneg c h0, if_neg (by simp [hc])]

/-! ### What the fetch decodes (20_memory.md R52, R53; 30_encoding.md R62, R64) -/

/-- Every word is at least its own opcode word long (R72). -/
theorem wordLength_pos (w : Word) : 0 < wordLength w := by
  unfold wordLength
  split
  · exact Nat.one_pos
  · split
    · exact Nat.one_pos
    · rw [stride_eq_roles]; exact Nat.succ_pos _

/-- The words of the instruction at IP begin with the opcode word that gives their number. -/
theorem instrWords_eq_cons (s : State) :
    instrWords s = memRead s s.ip.toNat ::
      readWords s (s.ip.toNat + 1) (wordLength (memRead s s.ip.toNat) - 1) := by
  obtain ⟨n, hn⟩ := Nat.exists_eq_add_of_lt (wordLength_pos (memRead s s.ip.toNat))
  rw [instrWords, hn]
  simp [readWords]

theorem readWords_memWrite_of_lt (s : State) {a b : Nat} (v : Word) (h : a < b) (n : Nat) :
    readWords (memWrite s a v) b n = readWords s b n := by
  simp only [readWords_eq_map]
  refine List.map_congr_left fun k _ => ?_
  rw [memRead_memWrite, if_neg (by omega)]

theorem fetchInstr_of_ip_neg {s : State} (h : s.ip < 0) : fetchInstr s = .error .invalidAddress := by
  rw [fetchInstr, if_pos h]

theorem fetchInstr_of_decode_ok {s : State} {i : Instr} {rest : List Word} (h0 : 0 ≤ s.ip)
    (h : decode (instrWords s) = .ok (i, rest)) : fetchInstr s = .ok i := by
  rw [fetchInstr, if_neg (not_lt.2 h0), h]

theorem fetchInstr_of_decode_error {s : State} {k : FaultKind} (h0 : 0 ≤ s.ip)
    (h : decode (instrWords s) = .error k) : fetchInstr s = .error k := by
  rw [fetchInstr, if_neg (not_lt.2 h0), h]

/-- Settles O9: the store gives the opcode word, and the words after it are read as before. -/
theorem storesAreSeenByTheNextFetch : Obligations.StoresAreSeenByTheNextFetch := by
  intro s a v i rest hip hdec
  have hat : (memWrite s a v).ip.toNat = a := by rw [memWrite_ip, hip, Int.toNat_natCast]
  refine fetchInstr_of_decode_ok (rest := rest) (by rw [memWrite_ip, hip]; exact Int.natCast_nonneg a) ?_
  rw [instrWords_eq_cons, hat, memRead_memWrite, if_pos rfl, readWords_memWrite_of_lt s v a.lt_succ_self]
  exact hdec

/-! ### Fetch faults (30_encoding.md R62) and the targets of jumps (42_control.md R142) -/

/-- The opcode identifier 0 is not in the table (R64). -/
theorem fetchInstr_of_memRead_eq_zero {s : State} (h0 : 0 ≤ s.ip) (h : memRead s s.ip.toNat = 0) :
    fetchInstr s = .error .invalidOpcode := by
  refine fetchInstr_of_decode_error h0 ?_
  rw [instrWords_eq_cons, h]
  rfl

theorem step_of_fetchInstr_error {s : State} {k : FaultKind} (hfr : s.fr = none) (hh : s.halted = false)
    (h : fetchInstr s = .error k) : step s = .next (takeFault k s) := by
  simp [step, hfr, hh, h]

/-- Of the shapes of a commit all but a taken jump keep IP or advance it. -/
theorem Committed.isJump_of_ip_neg {i : Instr} {s t : State} {r : StepResult} (h : Committed i s t r)
    (hs : 0 ≤ s.ip) (ht : t.ip < 0) : ∃ p0 p1, i = .jnz p0 p1 ∨ i = .jz p0 p1 := by
  have hadvance : ¬ s.ip + (i.opcode.stride : Int) < 0 :=
    not_lt.2 (add_nonneg hs (Int.natCast_nonneg _))
  cases h with
  | jump p0 p1 t hi => exact ⟨p0, p1, hi⟩
  | fault | inputHold | outputHold | halt => exact absurd ht (not_lt.2 hs)
  | store | input | output | noJump | base => exact absurd ht hadvance

/-- Settles O30: the two faults of the fetch, and the one shape of a commit that makes IP negative. -/
theorem fetchFaults : Obligations.FetchFaults := by
  refine ⟨fun s hfr hh hneg => step_of_fetchInstr_error hfr hh (fetchInstr_of_ip_neg hneg),
    fun s hinv hfr hh h0 hext => ?_, fun s t h h0 hneg => ?_⟩
  · exact step_of_fetchInstr_error hfr hh
      (fetchInstr_of_memRead_eq_zero h0 (hinv.memRead_eq_zero ((Int.le_toNat h0).2 hext)))
  · rcases step_cases h with rfl | ⟨k, rfl⟩ | ⟨i, r, hf, hc⟩
    · exact absurd hneg (not_lt.2 h0)
    · exact absurd hneg (not_lt.2 h0)
    · obtain ⟨p0, p1, rfl | rfl⟩ := hc.isJump_of_ip_neg h0 hneg
      · exact ⟨p0, p1, .inl hf⟩
      · exact ⟨p0, p1, .inr hf⟩

theorem exec_of_outcome_jumpTo {i : Instr} {s : State} {t : Word} (h : outcomeOf i s = .jumpTo t {}) :
    exec i s = .next { s with ip := t } := by
  rw [exec_eq_commit, h]
  simp [commit, applyEffects]

section

variable {s : State} {p0 p1 : Param} {c t : Word}

theorem exec_jnz_taken (h0 : readParam p0 s = .ok c) (h1 : readParam p1 s = .ok t) (hc : c ≠ 0) :
    exec (.jnz p0 p1) s = .next { s with ip := t } :=
  exec_of_outcome_jumpTo (by simp [outcomeOf, outcomeJnz, withReadRead, h0, h1, actJnz, jumpIf, hc])

theorem exec_jz_taken (h0 : readParam p0 s = .ok c) (h1 : readParam p1 s = .ok t) (hc : c = 0) :
    exec (.jz p0 p1) s = .next { s with ip := t } :=
  exec_of_outcome_jumpTo (by simp [outcomeOf, outcomeJz, withReadRead, h0, h1, actJz, jumpIf, hc])

end

/-- Settles O39: the jump checks nothing of its target; the fetch there does. Memory at the target is read in
the state before the jump, since the target of an arbitrary jump need not be a Word. -/
theorem jumpTargetsAreCheckedAtTheNextFetch : Obligations.JumpTargetsAreCheckedAtTheNextFetch := by
  intro s p0 p1 c t hc ht
  refine ⟨exec_jnz_taken hc ht, exec_jz_taken hc ht, fun hfr hh hneg => ?_, fun hinv hfr hh h0 hext => ?_⟩
  · exact step_of_fetchInstr_error (s := { s with ip := t }) hfr hh (fetchInstr_of_ip_neg hneg)
  · have hzero : memRead s t.toNat = 0 := hinv.memRead_eq_zero ((Int.le_toNat h0).2 hext)
    exact step_of_fetchInstr_error (s := { s with ip := t }) hfr hh
      (fetchInstr_of_memRead_eq_zero h0 hzero)

end Sys2Proof.Machine

/-! ### The table of opcodes and the fields of an instruction (30_encoding.md R60, R70) -/

namespace Sys2Proof

/-- The rows of the descriptor table, in its order (R70). -/
def Opcode.all : List Opcode := [.add, .mul, .inp, .out, .jnz, .jz, .lt, .eq, .arb, .halt]

theorem Opcode.mem_all (op : Opcode) : op ∈ Opcode.all := by cases op <;> decide

theorem Opcode.exists_number_eq_iff {n : Nat} :
    (∃ op : Opcode, op.number = n) ↔ n ∈ [1, 2, 3, 4, 5, 6, 7, 8, 9, 99] := by
  change _ ↔ n ∈ Opcode.all.map Opcode.number
  simp [Opcode.mem_all]

/-- The opcode tells the constructor, and the parameters are all its arguments. -/
theorem Instr.eq_of_opcode_params {i j : Instr} (hop : i.opcode = j.opcode) (hps : i.params = j.params) :
    i = j := by
  cases i <;> cases j <;> cases hop
  all_goals cases hps; rfl

theorem Instr.params_length (i : Instr) : i.params.length = i.opcode.roles.length := by cases i <;> rfl

@[simp] theorem opcode_assemble (op : Opcode) (M : Nat) (raws : List Word) :
    (assemble op M raws).opcode = op := by
  cases op <;> rfl

/-- The mode number of an instruction has its modes in its digits, so only the raw operands are left to
agree. -/
theorem assemble_modeNumber {i : Instr} {raws : List Word}
    (h : ∀ k (hk : k < i.params.length), raws.getD k 0 = i.params[k].raw) :
    assemble i.opcode (modeNumber i.params) raws = i := by
  refine Instr.eq_of_opcode_params (opcode_assemble ..) ?_
  rw [Machine.params_assemble, ← Instr.params_length]
  refine List.ext_getElem (by simp) fun k _ hk => ?_
  have hmode : modeOfDigit (digit k (modeNumber i.params)) = i.params[k].mode := by
    simp [digit_modeNumber, List.getElem?_eq_getElem hk]
  rw [List.getElem_map, List.getElem_range, paramAt, hmode, h k hk]

/-! ### What an opcode word decodes to, and the words after it (R63 to R65, R79) -/

theorem decodeWord_of_neg {w : Word} (h : w < 0) : decodeWord w = .error .invalidOpcode := by
  rw [decodeWord, if_pos h]

theorem decodeWord_of_not_opcode {w : Word} (h0 : 0 ≤ w) (h : ¬ ∃ op : Opcode, op.number = w.toNat % 100) :
    decodeWord w = .error .invalidOpcode := by
  have hnone : opcodeOfNat (w.toNat % 100) = none :=
    Option.eq_none_iff_forall_ne_some.2 fun op hop => h ⟨op, opcodeOfNat_eq_some.1 hop⟩
  rw [decodeWord, if_neg (not_lt.2 h0), hnone]

theorem decodeWord_of_digit_gt {w : Word} {op : Opcode} {k : Nat} (h0 : 0 ≤ w)
    (hop : op.number = w.toNat % 100) (hk : 2 < digit k (w.toNat / 100)) :
    decodeWord w = .error .invalidParameterMode := by
  have hall : (decimalDigits (w.toNat / 100)).all (· ≤ 2) ≠ true := fun h =>
    not_lt.2 ((all_decimalDigits 2 _).1 h k) hk
  rw [decodeWord, if_neg (not_lt.2 h0), opcodeOfNat_eq_some.2 hop]
  exact if_neg hall

/-- The canonical opcode word splits into the fields it is made of (R60). -/
theorem decodeWord_headWord (i : Instr) : decodeWord i.headWord = .ok (i.opcode, modeNumber i.params) := by
  have hlt := opcode_number_lt i.opcode
  have htoNat : i.headWord.toNat = i.opcode.number + 100 * modeNumber i.params := Int.toNat_natCast _
  refine decodeWord_eq_ok.2 ⟨Int.natCast_nonneg _, ?_, ?_, digit_modeNumber_le _⟩ <;> rw [htoNat] <;> omega

theorem decode_cons_of_error {w : Word} {k : FaultKind} (raws : List Word) (h : decodeWord w = .error k) :
    decode (w :: raws) = .error k := by
  rw [decode, List.headD_cons, h]

theorem decode_cons_eq_ok {w : Word} {raws rest : List Word} {i : Instr} :
    decode (w :: raws) = .ok (i, rest) ↔
      ∃ op M, decodeWord w = .ok (op, M) ∧ assemble op M raws = i ∧ raws.drop op.roles.length = rest := by
  rw [decode, List.headD_cons]
  rcases decodeWord w with k | ⟨op, M⟩ <;> simp [stride_eq_roles]

/-- The canonical opcode word selects its instruction, given the raw operands it has (R79). -/
theorem decode_headWord_cons {i : Instr} {raws : List Word}
    (h : ∀ k (hk : k < i.params.length), raws.getD k 0 = i.params[k].raw) :
    decode (i.headWord :: raws) = .ok (i, raws.drop i.opcode.roles.length) :=
  decode_cons_eq_ok.2 ⟨_, _, decodeWord_headWord i, assemble_modeNumber h, rfl⟩

/-- Settles O1: the words after the canonical opcode word begin with the raw operands. -/
theorem decodeOfEncodeIsTheInstruction : Obligations.DecodeOfEncodeIsTheInstruction := by
  intro i rest
  have hdecode := decode_headWord_cons (i := i) (raws := i.params.map (·.raw) ++ rest) fun k hk => by
    simp [List.getElem?_append_left, hk]
  rwa [List.drop_left' (by simp [Instr.params_length])] at hdecode

/-! ### The canonical word among the words of an instruction (R79) -/

/-- A digit 3 to 9 would stand for digit 0. -/
theorem digit_modeOfDigit_le (d : Nat) : (modeOfDigit d).digit ≤ d := by
  unfold modeOfDigit
  split <;> simp [Mode.digit]

theorem digit_succ (k n : Nat) : digit (k + 1) n = digit k (n / 10) := by
  rw [digit, digit, pow_succ', Nat.div_div_eq_div_mul]

theorem paramAt_succ (M : Nat) (raws : List Word) (k : Nat) :
    paramAt M raws (k + 1) = paramAt (M / 10) raws.tail k := by
  rw [paramAt, paramAt, digit_succ]
  cases raws <;> rfl

/-- The digits read for parameters make up no more than the mode number they are read from. -/
theorem modeNumber_paramAt_le (n M : Nat) (raws : List Word) :
    modeNumber ((List.range n).map (paramAt M raws)) ≤ M := by
  induction n generalizing M raws with
  | zero => exact Nat.zero_le M
  | succ n ih =>
    have hhead : (paramAt M raws 0).mode.digit ≤ M % 10 := by
      simpa [paramAt, digit] using digit_modeOfDigit_le (digit 0 M)
    have htail : (List.range n).map (paramAt M raws ∘ Nat.succ) =
        (List.range n).map (paramAt (M / 10) raws.tail) :=
      List.map_congr_left fun k _ => paramAt_succ M raws k
    have hrest := ih (M / 10) raws.tail
    rw [List.range_succ_eq_map, List.map_cons, List.map_map, htail, modeNumber]
    omega

theorem headWord_assemble_le {w : Word} {op : Opcode} {M : Nat} (h : decodeWord w = .ok (op, M))
    (raws : List Word) : (assemble op M raws).headWord ≤ w := by
  obtain ⟨h0, hop, hM, -⟩ := decodeWord_eq_ok.1 h
  have hmode := modeNumber_paramAt_le op.roles.length M raws
  rw [Instr.headWord, opcode_assemble, Machine.params_assemble]
  simp only [Word] at h0 hop hM ⊢
  omega

/-- Settles O2: an instruction is assembled with the raw operands its canonical word needs. -/
theorem canonicalWordIsTheLeast : Obligations.CanonicalWordIsTheLeast := by
  intro w raws rest i h
  obtain ⟨op, M, hw, rfl, rfl⟩ := decode_cons_eq_ok.1 h
  refine ⟨headWord_assemble_le hw raws, ?_⟩
  rw [decode_headWord_cons fun k hk => ?_, opcode_assemble]
  simp [Machine.params_assemble, paramAt]

/-- Settles O4: each list of words is evaluated by the decoder. -/
theorem wordsOfTheSpecDecode : Obligations.WordsOfTheSpecDecode :=
  ⟨rfl, rfl, rfl, rfl, rfl, rfl, rfl, rfl, rfl, rfl, rfl⟩

end Sys2Proof

/-! ### The step at its entry, at a refused word and at an instruction (30_encoding.md R61 to R66, R78) -/

namespace Sys2Proof.Machine

section

variable {s : State}

theorem stepResponse_of_fr {r : FaultRecord} (hfr : s.fr = some r) :
    stepResponse s = (s, .fault r.kind r.ip) := by
  rw [stepResponse, hfr]

theorem stepResponse_of_halted (hfr : s.fr = none) (hh : s.halted = true) :
    stepResponse s = faulted .alreadyHalted s := by
  simp [stepResponse, hfr, hh]

theorem step_of_fetchInstr_ok {i : Instr} (hfr : s.fr = none) (hh : s.halted = false)
    (h : fetchInstr s = .ok i) : step s = exec i s := by
  simp [step, hfr, hh, h]

theorem fetchInstr_of_decodeWord_error {k : FaultKind} (h0 : 0 ≤ s.ip)
    (h : decodeWord (memRead s s.ip.toNat) = .error k) : fetchInstr s = .error k := by
  refine fetchInstr_of_decode_error h0 ?_
  rw [instrWords_eq_cons, decode_cons_of_error _ h]

end

/-- Settles O3, by the sign of the word, its opcode digits and its mode digits. -/
theorem opcodeWordsAreAcceptedExactly : Obligations.OpcodeWordsAreAcceptedExactly := by
  intro w
  simp only [← Opcode.exists_number_eq_iff]
  refine ⟨decodeWord_of_neg, decodeWord_of_not_opcode, ?_, ?_, rfl, rfl, rfl, ?_⟩
  · rintro h0 ⟨op, hop⟩ ⟨k, hk⟩
    exact decodeWord_of_digit_gt h0 hop hk
  · rintro h0 ⟨op, hop⟩ hdigits
    exact ⟨op, hop, decodeWord_eq_ok.2 ⟨h0, hop, rfl, hdigits⟩⟩
  · rintro s k hfr hh h0 rfl hw
    exact step_of_fetchInstr_error hfr hh (fetchInstr_of_decodeWord_error h0 hw)

/-- Settles O27: the fetch gives the decoded instruction. -/
theorem stepRunsTheDecodedInstruction : Obligations.StepRunsTheDecodedInstruction :=
  fun _ _ _ hfr hh h0 h => step_of_fetchInstr_ok hfr hh (fetchInstr_of_decode_ok h0 h)

/-- The opcode word alone tells how many words the instruction has (R72). -/
theorem wordLength_of_decodeWord_ok {w : Word} {op : Opcode} {M : Nat} (h : decodeWord w = .ok (op, M)) :
    wordLength w = op.stride := by
  obtain ⟨h0, hop, -, -⟩ := decodeWord_eq_ok.1 h
  rw [wordLength, if_neg (not_lt.2 h0), opcodeOfNat_eq_some.2 hop]

theorem instrWords_of_readWords_eq_encode {s : State} {i : Instr}
    (h : readWords s s.ip.toNat i.opcode.stride = encode i) : instrWords s = encode i := by
  have hhead : memRead s s.ip.toNat = i.headWord := by
    rw [stride_eq_roles, readWords, encode] at h
    exact (List.cons.inj h).1
  rw [instrWords, hhead, wordLength_of_decodeWord_ok (decodeWord_headWord i), h]

/-- Settles O28: the words at IP are the encoding, and the encoding decodes to the instruction. -/
theorem stepRunsTheEncodedInstruction : Obligations.StepRunsTheEncodedInstruction := by
  intro s i hfr hh h0 h
  have hdecode := decodeOfEncodeIsTheInstruction i []
  rw [List.append_nil, ← instrWords_of_readWords_eq_encode h] at hdecode
  exact stepRunsTheDecodedInstruction s i [] hfr hh h0 hdecode

/-- Settles O32: the two step functions branch alike. -/
theorem stepAgreesWithItsResponse : Obligations.StepAgreesWithItsResponse := step_eq_next_stepResponse

/-- Settles O29, by whether a fault is recorded. -/
theorem stepEntryChecks : Obligations.StepEntryChecks := by
  intro s
  rw [step_eq_next_stepResponse]
  refine ⟨fun r hfr => ?_, fun hfr hh => ?_⟩
  · rw [stepResponse_of_fr hfr]; exact ⟨rfl, rfl⟩
  · rw [stepResponse_of_halted hfr hh]; exact ⟨rfl, rfl⟩

/-! ### The commit of each outcome (R75), and the pseudo-instructions (R91) -/

theorem commit_advance_of_aboveMax {s : State} {n : Nat} (e : Effects) (h : s.cfg.aboveMax (s.ip + n) = true) :
    commit n (.advance e) s = faulted .overflow s := by
  rw [commit, if_pos h]

theorem commit_advance_of_not_aboveMax {s : State} {n : Nat} (e : Effects)
    (h : s.cfg.aboveMax (s.ip + n) = false) :
    commit n (.advance e) s = ({ applyEffects e s with ip := s.ip + n }, .continued) := by
  rw [commit, if_neg (by simp [h])]

/-- Settles O31, outcome by outcome. -/
theorem commitOfEachOutcome : Obligations.CommitOfEachOutcome := fun _ _ e _ =>
  ⟨commit_advance_of_not_aboveMax e, commit_advance_of_aboveMax e, rfl, rfl⟩

theorem exec_of_outcome_advance {i : Instr} {s : State} {e : Effects} (h : outcomeOf i s = .advance e)
    (hip : s.cfg.aboveMax (s.ip + i.opcode.stride) = false) :
    exec i s = .next { applyEffects e s with ip := s.ip + i.opcode.stride } := by
  rw [exec_eq_commit, h, commit_advance_of_not_aboveMax e hip]

section

variable {s : State} {p0 p1 p2 : Param} {a b : Word} {d : Int}

theorem exec_add_completes (h0 : readParam p0 s = .ok a) (h1 : readParam p1 s = .ok b)
    (h2 : writeParam p2 s = .ok d) (hw : s.cfg.inWord (a + b) = true) (hd : 0 ≤ d)
    (hcap : s.cfg.atCap d = false) (hip : s.cfg.aboveMax (s.ip + 4) = false) :
    exec (.add p0 p1 p2) s = .next { memWrite s d.toNat (a + b) with ip := s.ip + 4 } := by
  have hcheck : checkWriteAddr s.cfg d = .ok d.toNat := by simp [checkWriteAddr_of_nonneg s.cfg hd, hcap]
  have hout : outcomeOf (.add p0 p1 p2) s = .advance { store := some (d.toNat, a + b) } := by
    simp [outcomeOf, outcomeAdd, withReadReadWrite, h0, h1, h2, actAdd, storeExact, hw, storeAt, hcheck]
  rw [exec_of_outcome_advance hout hip]
  simp [applyEffects, Instr.opcode, Opcode.stride]

theorem exec_jz_untaken (h0 : readParam p0 s = .ok a) (h1 : readParam p1 s = .ok b) (ha : a ≠ 0)
    (hip : s.cfg.aboveMax (s.ip + 3) = false) :
    exec (.jz p0 p1) s = .next { s with ip := s.ip + 3 } := by
  have hout : outcomeOf (.jz p0 p1) s = .advance {} := by
    simp [outcomeOf, outcomeJz, withReadRead, h0, h1, actJz, jumpIf, ha]
  rw [exec_of_outcome_advance hout hip]
  simp [applyEffects, Instr.opcode, Opcode.stride]

end

/-- An encoding by the number that the decimal fields of its opcode word make (R60). -/
theorem encode_eq_of_fields {i : Instr} {n : Nat} (h : i.opcode.number + 100 * modeNumber i.params = n) :
    encode i = (n : Int) :: i.params.map (·.raw) := by
  rw [encode, Instr.headWord, h]

theorem readParam_immediate (raw : Word) (s : State) : readParam ⟨.immediate, raw⟩ s = .ok raw := rfl

/-- Settles O5: the words are computed, and the effects are those of JNZ taken, ADD and JZ not taken. -/
theorem pseudoInstructionsExpand : Obligations.PseudoInstructionsExpand := by
  refine ⟨fun t => ?_, fun u d => ?_, rfl, fun s t v ht => ?_, fun s u d v a hu hd hv h0 hcap hip => ?_,
    fun s hip => ?_⟩
  · refine encode_eq_of_fields (i := pseudoJmp t) ?_
    simp only [pseudoJmp, Instr.opcode, Instr.params, Opcode.number, modeNumber, Mode.digit]
    omega
  · refine encode_eq_of_fields (i := pseudoMov u d) ?_
    simp only [pseudoMov, Instr.opcode, Instr.params, Opcode.number, modeNumber, Mode.digit]
    omega
  · exact exec_jnz_taken (readParam_immediate 1 s) ht one_ne_zero
  · have hsum : v + (0 : Word) = v := add_zero v
    rw [pseudoMov, exec_add_completes hu (readParam_immediate 0 s) hd (by rwa [hsum]) h0 hcap hip, hsum]
  · exact exec_jz_untaken (readParam_immediate 1 s) (readParam_immediate 0 s) one_ne_zero hip

/-! ### Parameters by mode and role (R67, R68) -/

theorem loadWord_of_neg (s : State) {a : Int} (h : a < 0) : loadWord s a = .error .invalidAddress := by
  rw [loadWord, if_pos h]

theorem loadWord_of_nonneg (s : State) {a : Int} (h : 0 ≤ a) : loadWord s a = .ok (memRead s a.toNat) := by
  rw [loadWord, if_neg (not_lt.2 h)]

section

variable {s : State}

/-- With RB = 0 the Relative address is the raw operand, as the Position address is. -/
theorem effectiveAddress_paramAsRelative (hrb : s.rb = 0) (p : Param) :
    effectiveAddress (paramAsRelative p) s = effectiveAddress p s := by
  obtain ⟨m, raw⟩ := p
  cases m with
  | position => simp [effectiveAddress, paramAsRelative, hrb]
  | immediate | relative => rfl

theorem readParam_paramAsRelative (hrb : s.rb = 0) (p : Param) :
    readParam (paramAsRelative p) s = readParam p s := by
  have haddr := effectiveAddress_paramAsRelative hrb p
  obtain ⟨m, raw⟩ := p
  cases m with
  | position => exact congrArg (loadWord s) haddr
  | immediate | relative => rfl

theorem writeParam_paramAsRelative (hrb : s.rb = 0) (p : Param) :
    writeParam (paramAsRelative p) s = writeParam p s := by
  have haddr := effectiveAddress_paramAsRelative hrb p
  obtain ⟨m, raw⟩ := p
  cases m with
  | position => exact congrArg Except.ok haddr
  | immediate | relative => rfl

theorem opcode_instrAsRelative (i : Instr) : (instrAsRelative i).opcode = i.opcode := by cases i <;> rfl

/-- An instruction looks at its parameters only through what they resolve to. -/
theorem outcomeOf_instrAsRelative (hrb : s.rb = 0) (i : Instr) :
    outcomeOf (instrAsRelative i) s = outcomeOf i s := by
  have hread := readParam_paramAsRelative hrb
  have hwrite := writeParam_paramAsRelative hrb
  cases i with
  | add => simp only [instrAsRelative, outcomeOf, outcomeAdd, withReadReadWrite, hread, hwrite]
  | mul => simp only [instrAsRelative, outcomeOf, outcomeMul, withReadReadWrite, hread, hwrite]
  | lt => simp only [instrAsRelative, outcomeOf, outcomeLt, withReadReadWrite, hread, hwrite]
  | eq => simp only [instrAsRelative, outcomeOf, outcomeEq, withReadReadWrite, hread, hwrite]
  | jnz => simp only [instrAsRelative, outcomeOf, outcomeJnz, withReadRead, hread]
  | jz => simp only [instrAsRelative, outcomeOf, outcomeJz, withReadRead, hread]
  | inp => simp only [instrAsRelative, outcomeOf, outcomeIn, hwrite]
  | out => simp only [instrAsRelative, outcomeOf, outcomeOut, hread]
  | arb => simp only [instrAsRelative, outcomeOf, outcomeArb, hread]
  | halt => rfl

end

/-- Settles O10: the data read of each memory mode on both sides of address 0, and the rest by definition. -/
theorem parametersResolveByModeAndRole : Obligations.ParametersResolveByModeAndRole := fun s raw =>
  ⟨loadWord_of_neg s, loadWord_of_nonneg s, loadWord_of_neg s, loadWord_of_nonneg s, rfl, rfl, rfl, rfl,
    fun hrb => ⟨readParam_paramAsRelative hrb ⟨.position, raw⟩,
      writeParam_paramAsRelative hrb ⟨.position, raw⟩⟩⟩

/-- Settles O40: the same outcome is committed with the same stride. -/
theorem positionEqualsRelativeAtBaseZero : Obligations.PositionEqualsRelativeAtBaseZero := by
  intro i s hrb
  rw [exec_eq_commit, exec_eq_commit, opcode_instrAsRelative, outcomeOf_instrAsRelative hrb]

/-! ### Holds, and what lifts them (R74, R210, R212) -/

section

variable {i : Instr} {s t : State} {r : StepResult}

theorem Committed.eq_of_awaitInput (h : Committed i s t r) (hr : r = .awaitInput) :
    t = s ∧ s.inq = [] ∧ ∃ p, i = .inp p := by
  cases h with
  | inputHold p hi hq => exact ⟨rfl, hq, p, hi⟩
  | _ => cases hr

theorem Committed.eq_of_awaitOutputSpace (h : Committed i s t r) (hr : r = .awaitOutputSpace) :
    t = s ∧ s.cfg.outCap = some s.outq.length ∧ ∃ p, i = .out p := by
  cases h with
  | outputHold p hi hf => exact ⟨rfl, by simpa [outputFull] using hf, p, hi⟩
  | _ => cases hr

end

/-- A step that answers no FAULT committed the instruction it fetched. -/
theorem committed_of_response_ne_fault {s : State} (h : ∀ k ip, (stepResponse s).2 ≠ .fault k ip) :
    ∃ i, fetchInstr s = .ok i ∧ Committed i s (stepResponse s).1 (stepResponse s).2 := by
  rcases stepResponse_committed s with ⟨r, -, he⟩ | ⟨-, -, he⟩ | ⟨k, -, -, -, he⟩ | ⟨i, -, -, hf, hc⟩
  · exact absurd (congrArg Prod.snd he) (h _ _)
  · exact absurd (congrArg Prod.snd he) (h _ _)
  · exact absurd (congrArg Prod.snd he) (h _ _)
  · exact ⟨i, hf, hc⟩

theorem stepResponse_awaitInput {s : State} (h : (stepResponse s).2 = .awaitInput) :
    (stepResponse s).1 = s ∧ s.inq = [] ∧ ∃ p, fetchInstr s = .ok (.inp p) := by
  obtain ⟨i, hf, hc⟩ := committed_of_response_ne_fault (s := s) (by simp [h])
  obtain ⟨hst, hq, p, rfl⟩ := hc.eq_of_awaitInput h
  exact ⟨hst, hq, p, hf⟩

theorem stepResponse_awaitOutputSpace {s : State} (h : (stepResponse s).2 = .awaitOutputSpace) :
    (stepResponse s).1 = s ∧ s.cfg.outCap = some s.outq.length ∧ ∃ p, fetchInstr s = .ok (.out p) := by
  obtain ⟨i, hf, hc⟩ := committed_of_response_ne_fault (s := s) (by simp [h])
  obtain ⟨hst, hcap, p, rfl⟩ := hc.eq_of_awaitOutputSpace h
  exact ⟨hst, hcap, p, hf⟩

theorem inPushCommand_eq_ok {v : Int} {s t : State} (h : inPushCommand v s = (t, .ok)) :
    t = { s with inq := s.inq ++ [v] } := by
  unfold inPushCommand at h
  split at h
  · split at h
    · cases h
    · cases h; rfl
  · cases h

theorem outPopCommand_eq_value {v : Word} {s t : State} (h : outPopCommand s = (t, .value v)) :
    ∃ q, s.outq = v :: q ∧ t = { s with outq := q } := by
  unfold outPopCommand at h
  split at h
  · cases h
  · rename_i hq
    cases h
    exact ⟨_, hq, rfl⟩

/-- Settles O34: IN's hold needs an empty INQ, which a push ends; OUT's needs a full OUTQ, which a pop ends. -/
theorem holdsChangeNothingUntilLifted : Obligations.HoldsChangeNothingUntilLifted := by
  refine fun s => ⟨fun h => ?_, fun h => ?_⟩
  · obtain ⟨hst, hq, hfetch⟩ := stepResponse_awaitInput h
    refine ⟨hst, hq, hfetch, fun v t ht hhold => ?_⟩
    obtain ⟨-, hempty, -⟩ := stepResponse_awaitInput hhold
    simp [inPushCommand_eq_ok ht] at hempty
  · obtain ⟨hst, hcap, hfetch⟩ := stepResponse_awaitOutputSpace h
    refine ⟨hst, hcap, hfetch, fun v t ht hhold => ?_⟩
    obtain ⟨q, hq, rfl⟩ := outPopCommand_eq_value ht
    obtain ⟨-, hfull, -⟩ := stepResponse_awaitOutputSpace hhold
    simp [hcap, hq] at hfull

/-! ### The end of a run does not depend on the budget left (50_host_interface.md R204 to R206) -/

theorem runUntilComplete_eq_of_le {n m : Nat} (hnm : n ≤ m) {s : State}
    (h : (runUntilComplete n s).2 ≠ .budgetExhausted) : runUntilComplete m s = runUntilComplete n s := by
  induction n generalizing m s with
  | zero => exact absurd rfl h
  | succ n ih =>
    obtain ⟨m, rfl⟩ := Nat.exists_eq_add_of_le' (Nat.one_le_of_lt hnm)
    by_cases hc : (stepResponse s).2 = .continued
    · rw [runUntilComplete_continued hc] at h
      rw [runUntilComplete_continued hc, runUntilComplete_continued hc, ih (Nat.le_of_succ_le_succ hnm) h]
    by_cases hh : (stepResponse s).2 = .halted
    · rw [runUntilComplete_halted hh, runUntilComplete_halted hh]
    · rw [runUntilComplete_result rfl hc hh, runUntilComplete_result rfl hc hh]

theorem runUntilOutput_eq_of_le {n m : Nat} (hnm : n ≤ m) {s : State}
    (h : (runUntilOutput n s).2 ≠ .budgetExhausted) : runUntilOutput m s = runUntilOutput n s := by
  induction n generalizing m s with
  | zero => exact absurd rfl h
  | succ n ih =>
    obtain ⟨m, rfl⟩ := Nat.exists_eq_add_of_le' (Nat.one_le_of_lt hnm)
    by_cases hc : (stepResponse s).2 = .continued
    · cases ho : nextIsOut s with
      | true => rw [runUntilOutput_out hc ho, runUntilOutput_out hc ho]
      | false =>
        rw [runUntilOutput_continued hc ho] at h
        rw [runUntilOutput_continued hc ho, runUntilOutput_continued hc ho,
          ih (Nat.le_of_succ_le_succ hnm) h]
    by_cases hh : (stepResponse s).2 = .halted
    · rw [runUntilOutput_halted hh, runUntilOutput_halted hh]
    · rw [runUntilOutput_result rfl hc hh, runUntilOutput_result rfl hc hh]

theorem response_ne_of_unbounded_eq_some {run : Nat → State → State × Response} {fuel : Nat} {s : State}
    {x : State × Response} (h : unbounded run fuel s = some x) : (run fuel s).2 ≠ .budgetExhausted := by
  unfold unbounded at h
  split at h
  · cases h
  · assumption

/-- An unbounded run that some fuel shows to end is shown the same by every larger one. -/
theorem unbounded_eq_of_le {run : Nat → State → State × Response}
    (hrun : ∀ {n m : Nat}, n ≤ m → ∀ {s : State}, (run n s).2 ≠ .budgetExhausted → run m s = run n s)
    {n m : Nat} (hnm : n ≤ m) {s : State} {x : State × Response} (h : unbounded run n s = some x) :
    unbounded run m s = some x := by
  have hend := response_ne_of_unbounded_eq_some h
  rwa [unbounded, hrun hnm hend, ← unbounded]

theorem command_eq_of_le {n m : Nat} (hnm : n ≤ m) {c : Command} {s : State} {x : State × Response}
    (h : command n c s = some x) : command m c s = some x := by
  cases c with
  | runUntilComplete b =>
    cases b with
    | none => exact unbounded_eq_of_le runUntilComplete_eq_of_le hnm h
    | some b => exact h
  | runUntilOutput b =>
    cases b with
    | none => exact unbounded_eq_of_le runUntilOutput_eq_of_le hnm h
    | some b => exact h
  | _ => exact h

/-- Settles O58: the larger of the two fuels shows both ends. -/
theorem commandsAreDeterministic : Obligations.CommandsAreDeterministic := by
  rintro c s t t' r r' ⟨n, h⟩ ⟨m, h'⟩
  have hmax := command_eq_of_le (le_max_left n m) h
  rw [command_eq_of_le (le_max_right n m) h'] at hmax
  cases hmax
  exact ⟨rfl, rfl⟩

/-! ### Commands while a fault is recorded (50_host_interface.md R214, 60_exceptions.md R252) -/

section

variable {s : State}

theorem State.Faulted.stepResponse_eq (h : s.Faulted) : ∃ k ip, stepResponse s = (s, .fault k ip) := by
  obtain ⟨r, hr⟩ := Option.ne_none_iff_exists'.1 h
  exact ⟨r.kind, r.ip, stepResponse_of_fr hr⟩

theorem State.Faulted.runUntilComplete_fst (h : s.Faulted) (n : Nat) : (runUntilComplete n s).1 = s := by
  obtain ⟨k, ip, hstep⟩ := h.stepResponse_eq
  cases n with
  | zero => rfl
  | succ n => rw [runUntilComplete, hstep]

theorem State.Faulted.runUntilOutput_fst (h : s.Faulted) (n : Nat) : (runUntilOutput n s).1 = s := by
  obtain ⟨k, ip, hstep⟩ := h.stepResponse_eq
  cases n with
  | zero => rfl
  | succ n => rw [runUntilOutput, hstep]

/-- A command issued while a fault is recorded is RESET, a LOAD or a queue port, or leaves the state as it is. -/
theorem State.Faulted.command_fst_cases (h : s.Faulted) {fuel : Nat} {c : Command} {x : State × Response}
    (hx : command fuel c s = some x) :
    (c = .reset ∨ ∃ text, c = .load text) ∨ x.1 = s ∨
    (∃ q, x.1 = { s with inq := q }) ∨ ∃ q, x.1 = { s with outq := q } := by
  cases c with
  | reset => exact .inl (.inl rfl)
  | load text => exact .inl (.inr ⟨text, rfl⟩)
  | step =>
    obtain ⟨k, ip, hstep⟩ := h.stepResponse_eq
    cases hx
    exact .inr (.inl (by rw [hstep]))
  | runUntilComplete b =>
    cases b with
    | none => rw [← eq_of_unbounded_eq_some hx]; exact .inr (.inl (h.runUntilComplete_fst fuel))
    | some b => cases hx; exact .inr (.inl (h.runUntilComplete_fst b))
  | runUntilOutput b =>
    cases b with
    | none => rw [← eq_of_unbounded_eq_some hx]; exact .inr (.inl (h.runUntilOutput_fst fuel))
    | some b => cases hx; exact .inr (.inl (h.runUntilOutput_fst b))
  | inPush v =>
    cases hx
    rcases inPushCommand_fst_cases v s with he | ⟨-, -, he⟩
    · exact .inr (.inl he)
    · exact .inr (.inr (.inl ⟨_, he⟩))
  | inPop =>
    cases hx
    rcases inPopCommand_fst_cases s with he | ⟨v, q, -, he⟩
    · exact .inr (.inl he)
    · exact .inr (.inr (.inl ⟨q, he⟩))
  | outPush v =>
    cases hx
    rcases outPushCommand_fst_cases v s with he | ⟨-, -, he⟩
    · exact .inr (.inl he)
    · exact .inr (.inr (.inr ⟨_, he⟩))
  | outPop =>
    cases hx
    rcases outPopCommand_fst_cases s with he | ⟨v, q, -, he⟩
    · exact .inr (.inl he)
    · exact .inr (.inr (.inr ⟨q, he⟩))
  | peek | snapshot | readReg => cases hx; exact .inr (.inl rfl)

end

/-- Settles O59: the queue ports change one queue and nothing else. -/
theorem onlyResetAndLoadLeaveAFault : Obligations.OnlyResetAndLoadLeaveAFault := by
  rintro c s t r hs ⟨fuel, h⟩
  rcases hs.command_fst_cases h with hc | rfl | ⟨q, rfl⟩ | ⟨q, rfl⟩
  · exact .inl hc
  · exact .inr rfl
  · exact .inr rfl
  · exact .inr rfl

end Sys2Proof.Machine

/-! ### What a fault of a bound rests on (40_arithmetic.md R102; 60_exceptions.md R247, R248) -/

namespace Sys2Proof

/-- The kinds a configuration has a cause for: Overflow needs an integer that is no Word, and CapacityExceeded an
address at or above CAP. -/
def Config.CanRaise (c : Config) : FaultKind → Prop
  | .overflow => ∃ v, c.inWord v = false
  | .capacityExceeded => ∃ d, c.atCap d = true
  | .invalidAddress | .invalidOpcode | .invalidParameterMode | .alreadyHalted => True

theorem Config.not_canRaise_overflow {c : Config} (h : c.wordBits = none) : ¬ c.CanRaise .overflow := by
  rintro ⟨v, hv⟩
  simp [Config.inWord_of_unbounded h] at hv

theorem Config.not_canRaise_capacityExceeded {c : Config} (hw : c.wordBits = none) (hm : c.memWords = none) :
    ¬ c.CanRaise .capacityExceeded := by
  rintro ⟨d, hd⟩
  simp [Config.atCap_iff, hw, hm] at hd

theorem Config.canRaise_overflow_of_aboveMax {c : Config} {v : Int} (h : c.aboveMax v = true) :
    c.CanRaise .overflow := ⟨v, by simp [Config.inWord, h]⟩

/-- The two kinds that refuse an opcode word (R63 to R65). -/
theorem decodeWord_error_kind {w : Word} {k : FaultKind} (h : decodeWord w = .error k) :
    k = .invalidOpcode ∨ k = .invalidParameterMode := by
  unfold decodeWord at h
  split at h
  · cases h; exact .inl rfl
  · split at h
    · cases h; exact .inl rfl
    · split at h <;> cases h
      exact .inr rfl

theorem Config.canRaise_of_decode_error (c : Config) {ws : List Word} {k : FaultKind}
    (h : decode ws = .error k) : c.CanRaise k := by
  unfold decode at h
  split at h <;> cases h
  rcases decodeWord_error_kind ‹_› with rfl | rfl <;> exact trivial

end Sys2Proof

namespace Sys2Proof.Machine

/-- A fault that an outcome raises is one the configuration has a cause for. -/
def ActOutcome.RaisesWithCause (c : Config) (o : ActOutcome) : Prop := ∀ k, o = .raise k → c.CanRaise k

section

variable {c : Config} {s : State}

theorem raisesWithCause_raise {k : FaultKind} (h : c.CanRaise k) : (ActOutcome.raise k).RaisesWithCause c := by
  rintro _ ⟨⟩
  exact h

theorem raisesWithCause_of_ne {o : ActOutcome} (h : ∀ k, o ≠ .raise k) : o.RaisesWithCause c :=
  fun k hk => absurd hk (h k)

theorem raisesWithCause_withArg {α : Type} {r : Except FaultKind α} {act : α → ActOutcome}
    (hr : ∀ k, r = .error k → c.CanRaise k) (hact : ∀ a, (act a).RaisesWithCause c) :
    (withArg r act).RaisesWithCause c := by
  cases r with
  | error k => exact raisesWithCause_raise (hr k rfl)
  | ok a => exact hact a

theorem raisesWithCause_readParam (p : Param) {act : Word → ActOutcome}
    (hact : ∀ a, (act a).RaisesWithCause c) : (withArg (readParam p s) act).RaisesWithCause c := by
  refine raisesWithCause_withArg (fun k h => ?_) hact
  rcases readParam_cases p s with ⟨-, hp⟩ | ⟨-, -, hp⟩ | ⟨-, -, hp⟩ <;> rw [hp] at h <;> cases h
  exact trivial

theorem raisesWithCause_writeParam (p : Param) {act : Int → ActOutcome}
    (hact : ∀ d, (act d).RaisesWithCause c) : (withArg (writeParam p s) act).RaisesWithCause c := by
  refine raisesWithCause_withArg (fun k h => ?_) hact
  rcases writeParam_cases p s with ⟨-, hp⟩ | ⟨-, hp⟩ <;> rw [hp] at h <;> cases h
  exact trivial

theorem raisesWithCause_storeAt (d : Int) (v : Word) (e : Effects) :
    (storeAt s d v e).RaisesWithCause s.cfg := by
  refine raisesWithCause_withArg (fun k h => ?_) fun a => raisesWithCause_of_ne (by simp)
  rcases checkWriteAddr_cases s.cfg d with ⟨-, hd⟩ | ⟨-, hcap, hd⟩ | ⟨-, -, hd⟩ <;>
    rw [hd] at h <;> cases h
  · exact trivial
  · exact ⟨d, hcap⟩

theorem raisesWithCause_storeExact (v d : Int) : (storeExact s v d).RaisesWithCause s.cfg := by
  unfold storeExact
  split
  · exact raisesWithCause_storeAt d v {}
  · rename_i hv
    exact raisesWithCause_raise ⟨v, by simpa using hv⟩

theorem raisesWithCause_withReadReadWrite (p0 p1 p2 : Param) {act : Word → Word → Int → ActOutcome}
    (hact : ∀ a b d, (act a b d).RaisesWithCause c) :
    (withReadReadWrite p0 p1 p2 s act).RaisesWithCause c :=
  raisesWithCause_readParam p0 fun a => raisesWithCause_readParam p1 fun b =>
    raisesWithCause_writeParam p2 fun d => hact a b d

theorem raisesWithCause_jumpIf (taken : Bool) (t : Word) : (jumpIf taken t).RaisesWithCause c := by
  cases taken with
  | true => exact raisesWithCause_of_ne (by simp [jumpIf])
  | false => exact raisesWithCause_of_ne (by simp [jumpIf])

/-- Overflow comes of an exact result that is no Word, CapacityExceeded of a checked write address. -/
theorem raisesWithCause_outcomeOf (i : Instr) (s : State) : (outcomeOf i s).RaisesWithCause s.cfg := by
  cases i with
  | add p0 p1 p2 => exact raisesWithCause_withReadReadWrite p0 p1 p2 fun a b => raisesWithCause_storeExact (a + b)
  | mul p0 p1 p2 => exact raisesWithCause_withReadReadWrite p0 p1 p2 fun a b => raisesWithCause_storeExact (a * b)
  | lt p0 p1 p2 | eq p0 p1 p2 =>
    exact raisesWithCause_withReadReadWrite p0 p1 p2 fun _ _ d => raisesWithCause_storeAt d _ {}
  | inp p =>
    refine raisesWithCause_writeParam p fun d => ?_
    unfold actIn
    split
    · exact raisesWithCause_of_ne (by simp)
    · exact raisesWithCause_storeAt d _ _
  | out p =>
    refine raisesWithCause_readParam p fun v => raisesWithCause_of_ne fun k => ?_
    cases h : outputFull s <;> simp [actOut, h]
  | jnz p0 p1 | jz p0 p1 =>
    exact raisesWithCause_readParam p0 fun _ => raisesWithCause_readParam p1 fun t => raisesWithCause_jumpIf _ t
  | arb p =>
    refine raisesWithCause_readParam p fun v => ?_
    unfold actArb
    split
    · exact raisesWithCause_of_ne (by simp)
    · rename_i hv
      exact raisesWithCause_raise ⟨s.rb + v, by simpa using hv⟩
  | halt => exact raisesWithCause_of_ne (by simp [outcomeOf, outcomeHalt])

/-- A commit records the fault its outcome raises, or the Overflow of the advance (R76). -/
theorem canRaise_of_commit {n : Nat} {o : ActOutcome} {r : FaultRecord} (ho : o.RaisesWithCause s.cfg)
    (hfr : s.fr = none) (hr : (commit n o s).1.fr = some r) : s.cfg.CanRaise r.kind := by
  cases o with
  | advance e =>
    cases hip : s.cfg.aboveMax (s.ip + n) with
    | true =>
      rw [commit_advance_of_aboveMax e hip] at hr
      cases hr
      exact Config.canRaise_overflow_of_aboveMax hip
    | false => simp [commit_advance_of_not_aboveMax e hip, hfr] at hr
  | raise k =>
    cases hr
    exact ho k rfl
  | jumpTo | halt | hold => simp [commit, hfr] at hr

theorem canRaise_of_fetchInstr_error {k : FaultKind} (h : fetchInstr s = .error k) : c.CanRaise k := by
  unfold fetchInstr at h
  split at h
  · cases h; exact trivial
  · split at h <;> cases h
    exact c.canRaise_of_decode_error ‹_›

/-- A step records only a fault that the configuration has a cause for. -/
theorem canRaise_of_step {t : State} {r : FaultRecord} (h : step s = .next t) (hfr : s.fr = none)
    (hr : t.fr = some r) : s.cfg.CanRaise r.kind := by
  rw [step_eq_next_stepResponse] at h
  cases h
  rcases stepResponse_cases s with ⟨r', hr', -⟩ | ⟨-, -, h⟩ | ⟨k, -, -, hk, h⟩ | ⟨i, -, -, -, h⟩
  · simp [hfr] at hr'
  · rw [h] at hr; cases hr; exact trivial
  · rw [h] at hr; cases hr; exact canRaise_of_fetchInstr_error hk
  · rw [h] at hr; exact canRaise_of_commit (raisesWithCause_outcomeOf i s) hfr hr

end

/-- Settles O41: without a bound there is no cause for either kind. -/
theorem unboundedInstancesNeverOverflow : Obligations.UnboundedInstancesNeverOverflow := by
  intro s t r h hfr hr hw
  have hcause := canRaise_of_step h hfr hr
  refine ⟨fun hk => ?_, fun hm hk => ?_⟩
  · exact Config.not_canRaise_overflow hw (hk ▸ hcause)
  · exact Config.not_canRaise_capacityExceeded hw hm (hk ▸ hcause)

end Sys2Proof.Machine

/-! ### A store at commit, and the instructions of format F3RRW (40_arithmetic.md R100, R101) -/

namespace Sys2Proof.Machine

section

variable {i : Instr} {s : State} {d : Int} {v : Word} {e : Effects}

theorem exec_of_outcome_raise {k : FaultKind} (h : outcomeOf i s = .raise k) :
    exec i s = .next (takeFault k s) := by
  rw [exec_eq_commit, h]
  rfl

theorem exec_of_outcome_advance_aboveMax (h : outcomeOf i s = .advance e)
    (hip : s.cfg.aboveMax (s.ip + i.opcode.stride) = true) : exec i s = .next (takeFault .overflow s) := by
  rw [exec_eq_commit, h, commit_advance_of_aboveMax e hip, faulted_fst]

theorem storeAt_of_neg (hd : d < 0) : storeAt s d v e = .raise .invalidAddress := by
  rw [storeAt, checkWriteAddr_of_neg s.cfg hd, withArg_error]

theorem storeAt_of_atCap (hd : 0 ≤ d) (hcap : s.cfg.atCap d = true) :
    storeAt s d v e = .raise .capacityExceeded := by
  rw [storeAt, checkWriteAddr_of_nonneg s.cfg hd, if_pos hcap, withArg_error]

theorem storeAt_of_not_atCap (hd : 0 ≤ d) (hcap : s.cfg.atCap d = false) :
    storeAt s d v e = .advance { e with store := some (d.toNat, v) } := by
  rw [storeAt, checkWriteAddr_of_nonneg s.cfg hd, if_neg (by simp [hcap]), withArg_ok]

theorem applyEffects_store (s : State) (a : Nat) (v : Word) :
    applyEffects { store := some (a, v) } s = memWrite s a v := by
  simp [applyEffects, memWrite]

theorem storeExact_of_not_inWord (hw : s.cfg.inWord v = false) : storeExact s v d = .raise .overflow := by
  rw [storeExact, if_neg (by simp [hw])]

theorem storeExact_of_inWord (hw : s.cfg.inWord v = true) : storeExact s v d = storeAt s d v {} := by
  rw [storeExact, if_pos hw]

/-- The effect of storing an exact result, and its faults in the order of R249: the result, the address, the
advance. -/
theorem exec_of_outcome_storeExact (hout : outcomeOf i s = storeExact s v d) :
    (s.cfg.inWord v = true → 0 ≤ d → s.cfg.atCap d = false →
      s.cfg.aboveMax (s.ip + i.opcode.stride) = false →
      exec i s = .next { memWrite s d.toNat v with ip := s.ip + i.opcode.stride }) ∧
    (s.cfg.inWord v = false → exec i s = .next (takeFault .overflow s)) ∧
    (s.cfg.inWord v = true → d < 0 → exec i s = .next (takeFault .invalidAddress s)) ∧
    (s.cfg.inWord v = true → 0 ≤ d → s.cfg.atCap d = true →
      exec i s = .next (takeFault .capacityExceeded s)) ∧
    (s.cfg.inWord v = true → 0 ≤ d → s.cfg.atCap d = false →
      s.cfg.aboveMax (s.ip + i.opcode.stride) = true → exec i s = .next (takeFault .overflow s)) := by
  have hstore : s.cfg.inWord v = true → outcomeOf i s = storeAt s d v {} := fun hw =>
    hout.trans (storeExact_of_inWord hw)
  refine ⟨fun hw hd hcap hip => ?_, fun hw => ?_, fun hw hd => ?_, fun hw hd hcap => ?_,
    fun hw hd hcap hip => ?_⟩
  · rw [exec_of_outcome_advance ((hstore hw).trans (storeAt_of_not_atCap hd hcap)) hip, applyEffects_store]
  · exact exec_of_outcome_raise (hout.trans (storeExact_of_not_inWord hw))
  · exact exec_of_outcome_raise ((hstore hw).trans (storeAt_of_neg hd))
  · exact exec_of_outcome_raise ((hstore hw).trans (storeAt_of_atCap hd hcap))
  · exact exec_of_outcome_advance_aboveMax ((hstore hw).trans (storeAt_of_not_atCap hd hcap)) hip

end

section

variable {i : Instr} {s : State} {p0 p1 p2 : Param}

/-- The opcode word of three parameters in decimal fields (R60). -/
theorem encode_of_three_params (hp : i.params = [p0, p1, p2]) :
    encode i = [((i.opcode.number + 100 * p0.mode.digit + 1000 * p1.mode.digit + 10000 * p2.mode.digit : Nat) :
      Int), p0.raw, p1.raw, p2.raw] := by
  have hfields : i.opcode.number + 100 * modeNumber i.params =
      i.opcode.number + 100 * p0.mode.digit + 1000 * p1.mode.digit + 10000 * p2.mode.digit := by
    rw [hp]
    simp only [modeNumber]
    omega
  rw [encode_eq_of_fields hfields, hp]
  rfl

theorem withReadReadWrite_of_ok {a b : Word} {d : Int} {act : Word → Word → Int → ActOutcome}
    (h0 : readParam p0 s = .ok a) (h1 : readParam p1 s = .ok b) (h2 : writeParam p2 s = .ok d) :
    withReadReadWrite p0 p1 p2 s act = act a b d := by
  rw [withReadReadWrite, h0, withArg_ok, h1, withArg_ok, h2, withArg_ok]

/-- The faults of the parameters of format F3RRW in index order: each is the first that fails (R69). -/
theorem exec_readReadWrite_faults (hr : i.opcode.roles = [.read, .read, .write]) (hp : i.params = [p0, p1, p2]) :
    (∀ k, readParam p0 s = .error k → exec i s = .next (takeFault k s)) ∧
    (∀ a k, readParam p0 s = .ok a → readParam p1 s = .error k → exec i s = .next (takeFault k s)) ∧
    (∀ a b k, readParam p0 s = .ok a → readParam p1 s = .ok b → writeParam p2 s = .error k →
      exec i s = .next (takeFault k s)) := by
  refine ⟨fun k h0 => ?_, fun a k h0 h1 => ?_, fun a b k h0 h1 h2 => ?_⟩
  · exact firstFailingParameterEndsTheStep i s k (by simp [hr, hp, resolutionFault, h0])
  · exact firstFailingParameterEndsTheStep i s k (by simp [hr, hp, resolutionFault, h0, h1])
  · exact firstFailingParameterEndsTheStep i s k (by simp [hr, hp, resolutionFault, h0, h1, h2])

end

/-- Settles O12: once the parameters resolve, the outcome is an exact store of the sum. -/
theorem addStoresTheExactSum : Obligations.AddStoresTheExactSum := by
  intro s p0 p1 p2
  obtain ⟨h0, h1, h2⟩ := exec_readReadWrite_faults (i := .add p0 p1 p2) (s := s) rfl rfl
  exact ⟨encode_of_three_params rfl, h0, h1, h2, fun a b d ha hb hd =>
    exec_of_outcome_storeExact (i := .add p0 p1 p2) (v := a + b) (withReadReadWrite_of_ok ha hb hd)⟩

/-- Settles O13: once the parameters resolve, the outcome is an exact store of the product. -/
theorem mulStoresTheExactProduct : Obligations.MulStoresTheExactProduct := by
  intro s p0 p1 p2
  obtain ⟨h0, h1, h2⟩ := exec_readReadWrite_faults (i := .mul p0 p1 p2) (s := s) rfl rfl
  exact ⟨encode_of_three_params rfl, h0, h1, h2, fun a b d ha hb hd =>
    exec_of_outcome_storeExact (i := .mul p0 p1 p2) (v := a * b) (withReadReadWrite_of_ok ha hb hd)⟩

end Sys2Proof.Machine

/-! ### Holds and stores at commit, and the instructions of one parameter (41_io.md R120, R121) -/

namespace Sys2Proof.Machine

section

variable {i : Instr} {s : State} {p : Param} {d : Int} {v : Word} {q : List Word} {e : Effects}

/-- The opcode word of one parameter in decimal fields (R60). -/
theorem encode_of_one_param (hp : i.params = [p]) :
    encode i = [((i.opcode.number + 100 * p.mode.digit : Nat) : Int), p.raw] := by
  have hfields : i.opcode.number + 100 * modeNumber i.params = i.opcode.number + 100 * p.mode.digit := by
    rw [hp, modeNumber, modeNumber, Nat.mul_zero, Nat.add_zero]
  rw [encode_eq_of_fields hfields, hp]
  rfl

/-- An instruction of one parameter ends with the fault of that parameter, whatever its role (R69). -/
theorem exec_of_resolutionFault {role : Role} {k : FaultKind} (hr : i.opcode.roles = [role])
    (hp : i.params = [p]) (h : resolutionFault s (role, p) = some k) : exec i s = .next (takeFault k s) :=
  firstFailingParameterEndsTheStep i s k (by simp [hr, hp, h])

theorem resolutionFault_read_of_error {k : FaultKind} (h : readParam p s = .error k) :
    resolutionFault s (.read, p) = some k := by
  simp [resolutionFault, h]

theorem resolutionFault_write_of_immediate (h : p.mode = .immediate) :
    resolutionFault s (.write, p) = some .invalidParameterMode := by
  simp [resolutionFault, writeParam, h]

/-- A hold leaves the state and answers its own status (R74). -/
theorem exec_and_commit_of_outcome_hold {h : Hold} (hout : outcomeOf i s = .hold h) :
    exec i s = .next s ∧ commit i.opcode.stride (outcomeOf i s) s = (s, h.result) := by
  rw [exec_eq_commit, hout]
  exact ⟨rfl, rfl⟩

/-- The effect of a checked store, and its faults in the order of R249: the address, the advance. -/
theorem exec_of_outcome_storeAt (hout : outcomeOf i s = storeAt s d v e) :
    (0 ≤ d → s.cfg.atCap d = false → s.cfg.aboveMax (s.ip + i.opcode.stride) = false →
      exec i s = .next { applyEffects { e with store := some (d.toNat, v) } s with
        ip := s.ip + i.opcode.stride }) ∧
    (d < 0 → exec i s = .next (takeFault .invalidAddress s)) ∧
    (0 ≤ d → s.cfg.atCap d = true → exec i s = .next (takeFault .capacityExceeded s)) ∧
    (0 ≤ d → s.cfg.atCap d = false → s.cfg.aboveMax (s.ip + i.opcode.stride) = true →
      exec i s = .next (takeFault .overflow s)) := by
  refine ⟨fun hd hcap hip => ?_, fun hd => ?_, fun hd hcap => ?_, fun hd hcap hip => ?_⟩
  · exact exec_of_outcome_advance (hout.trans (storeAt_of_not_atCap hd hcap)) hip
  · exact exec_of_outcome_raise (hout.trans (storeAt_of_neg hd))
  · exact exec_of_outcome_raise (hout.trans (storeAt_of_atCap hd hcap))
  · exact exec_of_outcome_advance_aboveMax (hout.trans (storeAt_of_not_atCap hd hcap)) hip

/-! ### IN (R120) -/

theorem outcomeOf_inp_of_ok (hd : writeParam p s = .ok d) : outcomeOf (.inp p) s = actIn s d := by
  rw [outcomeOf, outcomeIn, hd, withArg_ok]

theorem actIn_of_nil (hq : s.inq = []) : actIn s d = .hold .awaitInput := by
  rw [actIn, hq]

theorem actIn_of_cons (hq : s.inq = v :: q) : actIn s d = storeAt s d v { popsInput := true } := by
  rw [actIn, hq]

theorem applyEffects_store_pop (hq : s.inq = v :: q) (a : Nat) :
    applyEffects { store := some (a, v), popsInput := true } s = { memWrite s a v with inq := q } := by
  simp [applyEffects, memWrite, hq]

/-! ### OUT (R121) -/

theorem outcomeOf_out_of_ok (hv : readParam p s = .ok v) : outcomeOf (.out p) s = actOut s v := by
  rw [outcomeOf, outcomeOut, hv, withArg_ok]

theorem outputFull_iff : outputFull s = true ↔ s.cfg.outCap = some s.outq.length := by
  rw [outputFull, beq_iff_eq]

theorem actOut_of_full (h : s.cfg.outCap = some s.outq.length) : actOut s v = .hold .awaitOutputSpace := by
  rw [actOut, if_pos (outputFull_iff.2 h)]

theorem actOut_of_not_full (h : s.cfg.outCap ≠ some s.outq.length) :
    actOut s v = .advance { push := some v } := by
  rw [actOut, if_neg (mt outputFull_iff.1 h)]

theorem applyEffects_push (s : State) (v : Word) :
    applyEffects { push := some v } s = { s with outq := s.outq ++ [v] } := rfl

end

/-- Settles O14: once the address resolves, the head of INQ, where there is one, is stored and popped. -/
theorem inStoresTheOldestInput : Obligations.InStoresTheOldestInput := by
  intro s p
  refine ⟨encode_of_one_param rfl,
    fun hm => exec_of_resolutionFault rfl rfl (resolutionFault_write_of_immediate hm),
    fun d hd => ⟨fun hq => ?_, fun v q hq => ?_⟩⟩
  · exact exec_and_commit_of_outcome_hold ((outcomeOf_inp_of_ok hd).trans (actIn_of_nil hq))
  · have hstore := exec_of_outcome_storeAt ((outcomeOf_inp_of_ok hd).trans (actIn_of_cons hq))
    rw [applyEffects_store_pop hq] at hstore
    exact hstore

/-- Settles O15: once the value is read, it is pushed unless OUTQ is full. -/
theorem outAppendsTheValue : Obligations.OutAppendsTheValue := by
  intro s p
  refine ⟨encode_of_one_param rfl,
    fun k hk => exec_of_resolutionFault rfl rfl (resolutionFault_read_of_error hk),
    fun v hv => ⟨fun hfull => ?_, fun hfull hip => ?_, fun hfull hip => ?_⟩⟩
  · exact exec_and_commit_of_outcome_hold ((outcomeOf_out_of_ok hv).trans (actOut_of_full hfull))
  · rw [exec_of_outcome_advance ((outcomeOf_out_of_ok hv).trans (actOut_of_not_full hfull)) hip,
      applyEffects_push]
    rfl
  · exact exec_of_outcome_advance_aboveMax ((outcomeOf_out_of_ok hv).trans (actOut_of_not_full hfull)) hip

end Sys2Proof.Machine

/-! ### The conditional jumps (42_control.md R140 to R142) -/

namespace Sys2Proof.Machine

section

variable {i : Instr} {s : State} {p0 p1 : Param}

/-- The opcode word of two parameters in decimal fields (R60). -/
theorem encode_of_two_params (hp : i.params = [p0, p1]) :
    encode i = [((i.opcode.number + 100 * p0.mode.digit + 1000 * p1.mode.digit : Nat) : Int),
      p0.raw, p1.raw] := by
  have hfields : i.opcode.number + 100 * modeNumber i.params =
      i.opcode.number + 100 * p0.mode.digit + 1000 * p1.mode.digit := by
    rw [hp]
    simp only [modeNumber]
    omega
  rw [encode_eq_of_fields hfields, hp]
  rfl

theorem withReadRead_of_ok {a b : Word} {act : Word → Word → ActOutcome} (h0 : readParam p0 s = .ok a)
    (h1 : readParam p1 s = .ok b) : withReadRead p0 p1 s act = act a b := by
  rw [withReadRead, h0, withArg_ok, h1, withArg_ok]

/-- The faults of the parameters of format F2RR in index order: each is the first that fails (R69). -/
theorem exec_readRead_faults (hr : i.opcode.roles = [.read, .read]) (hp : i.params = [p0, p1]) :
    (∀ k, readParam p0 s = .error k → exec i s = .next (takeFault k s)) ∧
    (∀ a k, readParam p0 s = .ok a → readParam p1 s = .error k → exec i s = .next (takeFault k s)) := by
  refine ⟨fun k h0 => ?_, fun a k h0 h1 => ?_⟩
  · exact firstFailingParameterEndsTheStep i s k (by simp [hr, hp, resolutionFault, h0])
  · exact firstFailingParameterEndsTheStep i s k (by simp [hr, hp, resolutionFault, h0, h1])

theorem jumpIf_of_taken {taken : Bool} (h : taken = true) (t : Word) : jumpIf taken t = .jumpTo t {} :=
  if_pos h

theorem jumpIf_of_not_taken {taken : Bool} (h : taken = false) (t : Word) : jumpIf taken t = .advance {} :=
  if_neg (by simp [h])

theorem applyEffects_empty (s : State) : applyEffects {} s = s := by
  simp [applyEffects]

/-- A conditional jump sets IP to the target unchecked, or advances, which alone can fault (R142, R247). -/
theorem exec_of_outcome_jumpIf {taken : Bool} {t : Word} (hout : outcomeOf i s = jumpIf taken t) :
    (taken = true → exec i s = .next { s with ip := t }) ∧
    (taken = false → s.cfg.aboveMax (s.ip + i.opcode.stride) = false →
      exec i s = .next { s with ip := s.ip + i.opcode.stride }) ∧
    (taken = false → s.cfg.aboveMax (s.ip + i.opcode.stride) = true →
      exec i s = .next (takeFault .overflow s)) := by
  refine ⟨fun h => ?_, fun h hip => ?_, fun h hip => ?_⟩
  · exact exec_of_outcome_jumpTo (hout.trans (jumpIf_of_taken h t))
  · rw [exec_of_outcome_advance (hout.trans (jumpIf_of_not_taken h t)) hip, applyEffects_empty]
  · exact exec_of_outcome_advance_aboveMax (hout.trans (jumpIf_of_not_taken h t)) hip

end

/-- Settles O16: once the parameters resolve, the outcome is a jump if the condition is not 0. -/
theorem jnzJumpsWhenNotZero : Obligations.JnzJumpsWhenNotZero := by
  intro s p0 p1
  obtain ⟨h0, h1⟩ := exec_readRead_faults (i := .jnz p0 p1) (s := s) rfl rfl
  refine ⟨encode_of_two_params rfl, h0, h1, fun c t hc ht => ?_⟩
  obtain ⟨htaken, hadvance, hoverflow⟩ :=
    exec_of_outcome_jumpIf (i := .jnz p0 p1) (taken := c != 0) (withReadRead_of_ok hc ht)
  exact ⟨fun h => htaken (bne_iff_ne.2 h), fun h => hadvance (bne_eq_false_iff_eq.2 h),
    fun h => hoverflow (bne_eq_false_iff_eq.2 h)⟩

/-- Settles O17: once the parameters resolve, the outcome is a jump if the condition is 0. -/
theorem jzJumpsWhenZero : Obligations.JzJumpsWhenZero := by
  intro s p0 p1
  obtain ⟨h0, h1⟩ := exec_readRead_faults (i := .jz p0 p1) (s := s) rfl rfl
  refine ⟨encode_of_two_params rfl, h0, h1, fun c t hc ht => ?_⟩
  obtain ⟨htaken, hadvance, hoverflow⟩ :=
    exec_of_outcome_jumpIf (i := .jz p0 p1) (taken := c == 0) (withReadRead_of_ok hc ht)
  exact ⟨fun h => htaken (beq_iff_eq.2 h), fun h => hadvance (beq_eq_false_iff_ne.2 h),
    fun h => hoverflow (beq_eq_false_iff_ne.2 h)⟩

end Sys2Proof.Machine

/-! ### The comparisons (43_compare.md R160, R161) -/

namespace Sys2Proof.Machine

section

variable {i : Instr} {s : State} {p0 p1 p2 : Param} {a b v : Word} {d : Int}

theorem truthWord_decide (p : Prop) [Decidable p] : truthWord (decide p) = if p then 1 else 0 := by
  simp [truthWord]

theorem outcomeOf_lt_of_ok (ha : readParam p0 s = .ok a) (hb : readParam p1 s = .ok b)
    (hd : writeParam p2 s = .ok d) :
    outcomeOf (.lt p0 p1 p2) s = storeAt s d (if a < b then 1 else 0) {} := by
  rw [outcomeOf, outcomeLt, withReadReadWrite_of_ok ha hb hd, actLt, truthWord_decide]

theorem outcomeOf_eq_of_ok (ha : readParam p0 s = .ok a) (hb : readParam p1 s = .ok b)
    (hd : writeParam p2 s = .ok d) :
    outcomeOf (.eq p0 p1 p2) s = storeAt s d (if a = b then 1 else 0) {} := by
  rw [outcomeOf, outcomeEq, withReadReadWrite_of_ok ha hb hd, actEq, truthWord_decide]

/-- A checked store that is the outcome's one effect, and its faults in the order of R249. -/
theorem exec_of_outcome_storeAt_alone (hout : outcomeOf i s = storeAt s d v {}) :
    (0 ≤ d → s.cfg.atCap d = false → s.cfg.aboveMax (s.ip + i.opcode.stride) = false →
      exec i s = .next { memWrite s d.toNat v with ip := s.ip + i.opcode.stride }) ∧
    (d < 0 → exec i s = .next (takeFault .invalidAddress s)) ∧
    (0 ≤ d → s.cfg.atCap d = true → exec i s = .next (takeFault .capacityExceeded s)) ∧
    (0 ≤ d → s.cfg.atCap d = false → s.cfg.aboveMax (s.ip + i.opcode.stride) = true →
      exec i s = .next (takeFault .overflow s)) := by
  have hstore := exec_of_outcome_storeAt hout
  rw [applyEffects_store] at hstore
  exact hstore

end

/-- Settles O18: once the parameters resolve, the outcome is a store of the signed comparison's 1 or 0. -/
theorem ltStoresTheSignedComparison : Obligations.LtStoresTheSignedComparison := by
  intro s p0 p1 p2
  obtain ⟨h0, h1, h2⟩ := exec_readReadWrite_faults (i := .lt p0 p1 p2) (s := s) rfl rfl
  exact ⟨encode_of_three_params rfl, h0, h1, h2, fun a b d ha hb hd =>
    exec_of_outcome_storeAt_alone (outcomeOf_lt_of_ok ha hb hd)⟩

/-- Settles O19: once the parameters resolve, the outcome is a store of the equality's 1 or 0. -/
theorem eqStoresTheEquality : Obligations.EqStoresTheEquality := by
  intro s p0 p1 p2
  obtain ⟨h0, h1, h2⟩ := exec_readReadWrite_faults (i := .eq p0 p1 p2) (s := s) rfl rfl
  exact ⟨encode_of_three_params rfl, h0, h1, h2, fun a b d ha hb hd =>
    exec_of_outcome_storeAt_alone (outcomeOf_eq_of_ok ha hb hd)⟩

end Sys2Proof.Machine

/-! ### The relative base (44_relative_base.md R180) -/

namespace Sys2Proof.Machine

section

variable {s : State} {p : Param} {v : Word}

theorem outcomeOf_arb_of_ok (hv : readParam p s = .ok v) : outcomeOf (.arb p) s = actArb s v := by
  rw [outcomeOf, outcomeArb, hv, withArg_ok]

theorem actArb_of_inWord (hw : s.cfg.inWord (s.rb + v) = true) :
    actArb s v = .advance { newRb := some (s.rb + v) } := by
  rw [actArb, if_pos hw]

theorem actArb_of_not_inWord (hw : s.cfg.inWord (s.rb + v) = false) : actArb s v = .raise .overflow := by
  rw [actArb, if_neg (by simp [hw])]

theorem applyEffects_newRb (s : State) (b : Word) : applyEffects { newRb := some b } s = { s with rb := b } := by
  simp [applyEffects]

end

/-- Settles O20: once the value is read, with the old RB, the outcome is the new RB if the sum is a Word. -/
theorem arbMovesTheRelativeBase : Obligations.ArbMovesTheRelativeBase := by
  intro s p
  refine ⟨encode_of_one_param rfl,
    fun k hk => exec_of_resolutionFault rfl rfl (resolutionFault_read_of_error hk),
    fun v hv => ⟨fun hw hip => ?_, fun hw => ?_, fun hw hip => ?_⟩⟩
  · rw [exec_of_outcome_advance ((outcomeOf_arb_of_ok hv).trans (actArb_of_inWord hw)) hip,
      applyEffects_newRb]
    rfl
  · exact exec_of_outcome_raise ((outcomeOf_arb_of_ok hv).trans (actArb_of_not_inWord hw))
  · exact exec_of_outcome_advance_aboveMax ((outcomeOf_arb_of_ok hv).trans (actArb_of_inWord hw)) hip

end Sys2Proof.Machine

/-! ### HALT (45_halt.md R190) -/

namespace Sys2Proof.Machine

/-- HALT has no parameters, so no digit of the mode number and no word after the opcode word matters. -/
theorem decode_cons_of_opcode_halt {w : Word} (h0 : 0 ≤ w) (hop : w.toNat % 100 = 99)
    (hdigits : ∀ k, digit k (w.toNat / 100) ≤ 2) (raws : List Word) :
    decode (w :: raws) = .ok (.halt, raws) :=
  decode_cons_eq_ok.2 ⟨.halt, w.toNat / 100, decodeWord_eq_ok.2 ⟨h0, hop.symm, rfl, hdigits⟩, rfl, rfl⟩

/-- Settles O21: the halting commit sets HALTED alone, which the next step finds at its entry. -/
theorem haltSetsHaltedAndKeepsIp : Obligations.HaltSetsHaltedAndKeepsIp := by
  refine ⟨encode_eq_of_fields rfl, fun s => ⟨exec_halt s, rfl, fun hfr => ?_⟩,
    fun w raws h0 hop => ⟨fun hdigits => ?_, fun ⟨k, hk⟩ => ?_⟩⟩
  · exact ((stepEntryChecks { s with halted := true }).2 hfr rfl).1
  · exact decode_cons_of_opcode_halt h0 hop hdigits raws
  · exact decode_cons_of_error raws (decodeWord_of_digit_gt (op := .halt) h0 hop.symm hk)

end Sys2Proof.Machine

/-! ### Every command keeps the invariant (R218) -/

namespace Sys2Proof.Machine

/-- Settles O44: the commands are made of operations that keep the invariant. -/
theorem commandsKeepTheInvariant : Obligations.CommandsKeepTheInvariant := fun _ _ _ _ hinv hret =>
  inv_keptByOperations.returns hret hinv

end Sys2Proof.Machine

/-! ### LOAD, and what PEEK reads after it (50_host_interface.md R200, R215, R272) -/

namespace Sys2Proof.Machine

section

variable {s t : State} {text : List Char}

theorem loadCommand_of_parseProgram_some {ws : List Word} (h : parseProgram s.cfg text = some ws) :
    loadCommand text s = (resetState { s with program := ws }, .ok) := by
  rw [loadCommand, h]

theorem loadCommand_of_parseProgram_none (h : parseProgram s.cfg text = none) :
    loadCommand text s = (s, .loadError) := by
  rw [loadCommand, h]

/-- LOAD answers OK only where the text parses, and it has then reset the state with that program. -/
theorem loadCommand_eq_ok (h : loadCommand text s = (t, .ok)) :
    ∃ ws, parseProgram s.cfg text = some ws ∧ t = resetState { s with program := ws } := by
  cases hp : parseProgram s.cfg text with
  | none => rw [loadCommand_of_parseProgram_none hp] at h; cases h
  | some ws =>
    rw [loadCommand_of_parseProgram_some hp] at h
    cases h
    exact ⟨ws, rfl, rfl⟩

end

/-- Settles O48, by whether the text parses. -/
theorem loadParsesAndResets : Obligations.LoadParsesAndResets := fun _ _ =>
  ⟨fun _ => loadCommand_of_parseProgram_some, loadCommand_of_parseProgram_none⟩

theorem peekCommand_of_neg {a : Int} (h : a < 0) (s : State) : peekCommand a s = .invalidAddress := by
  rw [peekCommand, if_pos h]

theorem peekCommand_of_nonneg {a : Int} (h : 0 ≤ a) (s : State) : peekCommand a s = .value (memRead s a.toNat) := by
  rw [peekCommand, if_neg (not_lt.2 h)]

theorem memRead_resetState (s : State) (a : Nat) : memRead (resetState s) a = s.program.getD a 0 := by
  rw [memRead, resetState_mem, Memory.read_ofWords, if_neg (Nat.not_lt_zero a), Nat.sub_zero]

theorem peekCommand_resetState (s : State) (a : Nat) :
    peekCommand a (resetState s) = .value (s.program.getD a 0) := by
  rw [peekCommand_of_nonneg (Int.natCast_nonneg a), Int.toNat_natCast, memRead_resetState]

/-- Settles O49: LOAD has reset the state, and memory after a reset is the program. -/
theorem loadThenPeekGivesTheProgram : Obligations.LoadThenPeekGivesTheProgram := by
  intro s t text h
  obtain ⟨ws, hparse, rfl⟩ := loadCommand_eq_ok h
  refine ⟨hparse, rfl, rfl, fun a ha => ?_, fun a ha => ?_⟩
  · exact (peekCommand_resetState _ a).trans (congrArg _ (List.getD_eq_getElem ws 0 ha))
  · exact (peekCommand_resetState _ a).trans (congrArg _ (List.getD_eq_default ws 0 ha))

end Sys2Proof.Machine

/-! ### The queue ports and the read-out ports (R210 to R213, R215 to R217) -/

namespace Sys2Proof.Machine

section

variable {s : State} {v : Int}

theorem inPushCommand_of_not_inWord (h : s.cfg.inWord v = false) : inPushCommand v s = (s, .notAWord) := by
  simp [inPushCommand, h]

theorem inPushCommand_of_full (hv : s.cfg.inWord v = true) (h : s.cfg.inCap = some s.inq.length) :
    inPushCommand v s = (s, .full) := by
  simp [inPushCommand, hv, h]

theorem inPushCommand_of_not_full (hv : s.cfg.inWord v = true) (h : s.cfg.inCap ≠ some s.inq.length) :
    inPushCommand v s = ({ s with inq := s.inq ++ [v] }, .ok) := by
  simp [inPushCommand, hv, h]

theorem outPushCommand_of_not_inWord (h : s.cfg.inWord v = false) : outPushCommand v s = (s, .notAWord) := by
  simp [outPushCommand, h]

theorem outPushCommand_of_full (hv : s.cfg.inWord v = true) (h : s.cfg.outCap = some s.outq.length) :
    outPushCommand v s = (s, .full) := by
  simp [outPushCommand, hv, h]

theorem outPushCommand_of_not_full (hv : s.cfg.inWord v = true) (h : s.cfg.outCap ≠ some s.outq.length) :
    outPushCommand v s = ({ s with outq := s.outq ++ [v] }, .ok) := by
  simp [outPushCommand, hv, h]

theorem inPopCommand_of_nil (h : s.inq = []) : inPopCommand s = (s, .empty) := by
  rw [inPopCommand, h]

theorem inPopCommand_of_cons {q : List Word} (h : s.inq = v :: q) :
    inPopCommand s = ({ s with inq := q }, .value v) := by
  rw [inPopCommand, h]

theorem outPopCommand_of_nil (h : s.outq = []) : outPopCommand s = (s, .empty) := by
  rw [outPopCommand, h]

theorem outPopCommand_of_cons {q : List Word} (h : s.outq = v :: q) :
    outPopCommand s = ({ s with outq := q }, .value v) := by
  rw [outPopCommand, h]

end

/-- Settles O51, port by port: a push by whether the value is a Word and the queue is full, a pop by whether
the queue is empty. -/
theorem queuePorts : Obligations.QueuePorts := fun _ =>
  ⟨fun _ h => ⟨inPushCommand_of_not_inWord h, outPushCommand_of_not_inWord h⟩,
    fun _ hv => ⟨inPushCommand_of_full hv, inPushCommand_of_not_full hv, outPushCommand_of_full hv,
      outPushCommand_of_not_full hv⟩,
    inPopCommand_of_nil, fun _ _ => inPopCommand_of_cons, outPopCommand_of_nil,
    fun _ _ => outPopCommand_of_cons⟩

theorem snapshotWords_eq_map (s : State) : snapshotWords s = (List.range s.extent).map (memRead s) := by
  rw [snapshotWords, readWords_eq_map]
  exact List.map_congr_left fun k _ => by rw [Nat.zero_add]

theorem readRegCommand_of_hostRegister_some {n : Nat} {s : State} {v : Word} (h : hostRegister s n = some v) :
    readRegCommand n s = .value v := by
  rw [readRegCommand, h]

theorem readRegCommand_of_hostRegister_none {n : Nat} {s : State} (h : hostRegister s n = none) :
    readRegCommand n s = .noSuchRegister := by
  rw [readRegCommand, h]

/-- Settles O52: `command` answers each of the three ports beside the state it was given. -/
theorem readOutPortsOnlyRead : Obligations.ReadOutPortsOnlyRead := by
  refine fun fuel s => ⟨fun a h => ?_, fun a h => ?_, ?_, fun n v h => ?_, fun n h => ?_⟩
  · rw [command, peekCommand_of_neg h]
  · rw [command, peekCommand_of_nonneg h]
  · rw [command, snapshotWords_eq_map]
  · rw [command, readRegCommand_of_hostRegister_some h]
  · rw [command, readRegCommand_of_hostRegister_none (hostRegister_eq_none h s)]

end Sys2Proof.Machine

/-! ### LOAD's parser and the grammar (50_host_interface.md R201) -/

namespace Sys2Proof.Machine

/-! #### `digit+` -/

theorem digitsFrom_concat (c : Char) (cs : List Char) (n : Nat) :
    digitsFrom n (cs ++ [c]) = (digitsFrom n cs).bind fun m => (digitValue c).map (10 * m + ·) := by
  induction cs generalizing n with
  | nil => cases hd : digitValue c <;> simp [digitsFrom, hd]
  | cons b cs ih => cases hd : digitValue b <;> simp [digitsFrom, hd, ih]

theorem parseDigits_of_ne_nil {cs : List Char} (h : cs ≠ []) : parseDigits cs = digitsFrom 0 cs := by
  cases cs with
  | nil => exact absurd rfl h
  | cons c cs => rfl

theorem parseDigits_singleton (c : Char) : parseDigits [c] = digitValue c := by
  cases hd : digitValue c <;> simp [parseDigits, digitsFrom, hd]

theorem parseDigits_concat {cs : List Char} (h : cs ≠ []) (c : Char) :
    parseDigits (cs ++ [c]) = (parseDigits cs).bind fun m => (digitValue c).map (10 * m + ·) := by
  rw [parseDigits_of_ne_nil (by simp), digitsFrom_concat, parseDigits_of_ne_nil h]

theorem DigitsText.ne_nil {cs : List Char} {n : Nat} (h : DigitsText cs n) : cs ≠ [] := by
  cases h <;> simp

/-- The grammar reads the last digit last, so the induction takes the text from its end. -/
theorem parseDigits_eq_some_iff {cs : List Char} {n : Nat} : parseDigits cs = some n ↔ DigitsText cs n := by
  constructor
  · intro h
    induction cs using List.reverseRecOn generalizing n with
    | nil => cases h
    | append_singleton cs c ih =>
      by_cases hcs : cs = []
      · subst hcs
        exact .one ((parseDigits_singleton c).symm.trans h)
      · rw [parseDigits_concat hcs, Option.bind_eq_some_iff] at h
        obtain ⟨m, hm, h⟩ := h
        obtain ⟨d, hd, rfl⟩ := Option.map_eq_some_iff.1 h
        exact .more (ih hm) hd
  · intro h
    induction h with
    | one hd => rw [parseDigits_singleton, hd]
    | more hs hd ih => rw [parseDigits_concat hs.ne_nil, ih, hd]; rfl

theorem DigitsText.digitValue_ne_none {cs : List Char} {n : Nat} (h : DigitsText cs n) :
    ∀ c ∈ cs, digitValue c ≠ none := by
  induction h with
  | one hd => simp [hd]
  | more hs hd ih => simpa [or_imp, forall_and, hd] using ih

/-! #### `int` -/

theorem digitValue_minus : digitValue '-' = none := by decide

theorem parseInt_minus (cs : List Char) : parseInt ('-' :: cs) = (parseDigits cs).map fun n : Nat => -(n : Int) := by
  rw [parseInt, if_pos rfl]

theorem parseInt_of_ne_minus {c : Char} (h : c ≠ '-') (cs : List Char) :
    parseInt (c :: cs) = (parseDigits (c :: cs)).map fun n : Nat => (n : Int) := by
  rw [parseInt, if_neg h]

theorem IntText.ne_nil {cs : List Char} {v : Int} (h : IntText cs v) : cs ≠ [] := by
  cases h with
  | plain h => exact h.ne_nil
  | minus h => simp

/-- A minus sign is no digit, so it tells the two forms of a literal apart. -/
theorem parseInt_eq_some_iff {cs : List Char} {v : Int} : parseInt cs = some v ↔ IntText cs v := by
  constructor
  · intro h
    cases cs with
    | nil => cases h
    | cons c cs =>
      by_cases hc : c = '-'
      · subst hc
        rw [parseInt_minus] at h
        obtain ⟨n, hn, rfl⟩ := Option.map_eq_some_iff.1 h
        exact .minus (parseDigits_eq_some_iff.1 hn)
      · rw [parseInt_of_ne_minus hc] at h
        obtain ⟨n, hn, rfl⟩ := Option.map_eq_some_iff.1 h
        exact .plain (parseDigits_eq_some_iff.1 hn)
  · rintro (⟨h⟩ | ⟨h⟩)
    · obtain ⟨c, cs, rfl⟩ := List.exists_cons_of_ne_nil h.ne_nil
      have hc : c ≠ '-' := by
        rintro rfl
        exact h.digitValue_ne_none '-' (by simp) digitValue_minus
      rw [parseInt_of_ne_minus hc, parseDigits_eq_some_iff.2 h]; rfl
    · rw [parseInt_minus, parseDigits_eq_some_iff.2 h]; rfl

/-! #### `ws int ws` -/

theorem eq_of_isSpace {c : Char} (h : isSpace c = true) : c = ' ' ∨ c = '\t' ∨ c = '\r' ∨ c = '\n' := by
  simpa [isSpace, or_assoc] using h

theorem digitValue_of_isSpace {c : Char} (h : isSpace c = true) : digitValue c = none := by
  rcases eq_of_isSpace h with rfl | rfl | rfl | rfl <;> decide

theorem IntText.eq_minus_or_digit {cs : List Char} {v : Int} (h : IntText cs v) :
    ∀ c ∈ cs, c = '-' ∨ digitValue c ≠ none := by
  cases h with
  | plain h => exact fun c hc => .inr (h.digitValue_ne_none c hc)
  | minus h =>
    intro c hc
    rcases List.mem_cons.1 hc with rfl | hc
    · exact .inl rfl
    · exact .inr (h.digitValue_ne_none c hc)

theorem IntText.not_isSpace {cs : List Char} {v : Int} (h : IntText cs v) : ∀ c ∈ cs, isSpace c = false := by
  intro c hc
  rcases h.eq_minus_or_digit c hc with rfl | hd
  · decide
  · exact Bool.eq_false_iff.2 fun hs => hd (digitValue_of_isSpace hs)

theorem dropWhile_isSpace_append {before rest : List Char} (hb : ∀ c ∈ before, isSpace c = true)
    (hr : ∀ c ∈ rest.head?, isSpace c = false) : (before ++ rest).dropWhile isSpace = rest := by
  rw [List.dropWhile_append_of_pos hb]
  cases rest with
  | nil => rfl
  | cons c rest => rw [List.dropWhile_cons_of_neg (by simp [hr c rfl])]

/-- Trimming takes off exactly the whitespace around a text that is not empty and has none inside. -/
theorem trimSpace_append {before body after : List Char} (hb : ∀ c ∈ before, isSpace c = true)
    (hne : body ≠ []) (hbody : ∀ c ∈ body, isSpace c = false) (ha : ∀ c ∈ after, isSpace c = true) :
    trimSpace (before ++ body ++ after) = body := by
  have hfront : (before ++ (body ++ after)).dropWhile isSpace = body ++ after :=
    dropWhile_isSpace_append hb fun c hc => hbody c (by
      rw [List.head?_append_of_ne_nil _ hne] at hc
      exact List.mem_of_mem_head? hc)
  have hback : (after.reverse ++ body.reverse).dropWhile isSpace = body.reverse :=
    dropWhile_isSpace_append (by simpa using ha) fun c hc =>
      hbody c (List.mem_reverse.1 (List.mem_of_mem_head? hc))
  rw [trimSpace, List.append_assoc, hfront, List.reverse_append, hback, List.reverse_reverse]

/-- What trimming takes off is whitespace. -/
theorem exists_eq_append_trimSpace (cs : List Char) : ∃ before after : List Char,
    before.all isSpace = true ∧ after.all isSpace = true ∧ cs = before ++ trimSpace cs ++ after := by
  refine ⟨cs.takeWhile isSpace, (cs.dropWhile isSpace).rtakeWhile isSpace, List.all_takeWhile,
    List.all_eq_true.2 fun c => List.mem_rtakeWhile_imp, ?_⟩
  rw [List.append_assoc]
  exact ((congrArg _ (List.rdropWhile_append_rtakeWhile ..)).trans List.takeWhile_append_dropWhile).symm

theorem parseInt_trimSpace_eq_some_iff {cs : List Char} {v : Int} :
    parseInt (trimSpace cs) = some v ↔ FieldText cs v := by
  rw [parseInt_eq_some_iff]
  constructor
  · intro h
    obtain ⟨before, after, hb, ha, heq⟩ := exists_eq_append_trimSpace cs
    rw [heq]
    exact .intro hb h ha
  · rintro ⟨hb, h, ha⟩
    rwa [trimSpace_append (List.all_eq_true.1 hb) h.ne_nil h.not_isSpace (List.all_eq_true.1 ha)]

/-! #### The fields between the commas -/

theorem IntText.comma_not_mem {cs : List Char} {v : Int} (h : IntText cs v) : ',' ∉ cs := fun hm =>
  absurd (h.eq_minus_or_digit ',' hm) (by decide)

theorem FieldText.comma_not_mem {cs : List Char} {v : Int} (h : FieldText cs v) : ',' ∉ cs := by
  have hspaces : ∀ {ws : List Char}, ws.all isSpace = true → ',' ∉ ws := fun hws hm =>
    absurd (List.all_eq_true.1 hws ',' hm) (by decide)
  obtain ⟨hb, hint, ha⟩ := h
  simp only [List.mem_append, not_or]
  exact ⟨⟨hspaces hb, hint.comma_not_mem⟩, hspaces ha⟩

theorem splitFields_of_comma_not_mem {cs : List Char} (h : ',' ∉ cs) : splitFields cs = [cs] := by
  induction cs with
  | nil => rfl
  | cons c cs ih =>
    rw [List.mem_cons, not_or] at h
    rw [splitFields, if_neg (Ne.symm h.1), ih h.2]

theorem splitFields_append_comma {cs : List Char} (h : ',' ∉ cs) (rest : List Char) :
    splitFields (cs ++ ',' :: rest) = cs :: splitFields rest := by
  induction cs with
  | nil => rw [List.nil_append, splitFields, if_pos rfl]
  | cons c cs ih =>
    rw [List.mem_cons, not_or] at h
    rw [List.cons_append, splitFields, if_neg (Ne.symm h.1), ih h.2]

theorem parseFields_cons_eq_some_iff {f : List Char} {fs : List (List Char)} {ws : List Int} :
    parseFields (f :: fs) = some ws ↔
      ∃ v vs, FieldText f v ∧ parseFields fs = some vs ∧ ws = v :: vs := by
  simp only [← parseInt_trimSpace_eq_some_iff]
  rw [parseFields]
  cases parseInt (trimSpace f) <;> cases parseFields fs <;> simp [eq_comm]

theorem parseFields_singleton_eq_some_iff {f : List Char} {ws : List Int} :
    parseFields [f] = some ws ↔ ∃ v, FieldText f v ∧ ws = [v] := by
  rw [parseFields_cons_eq_some_iff]
  simp [parseFields]

/-- A text the parser reads is of the grammar, by recursion on what follows its first comma. -/
theorem programText_of_parseFields {text : List Char} {ws : List Int}
    (h : parseFields (splitFields text) = some ws) : ProgramText text ws := by
  by_cases hcomma : ',' ∈ text
  · obtain ⟨cs, rest, htext, hcs⟩ := List.eq_append_cons_of_mem hcomma
    rw [htext, splitFields_append_comma hcs, parseFields_cons_eq_some_iff] at h
    obtain ⟨v, vs, hfield, hrest, rfl⟩ := h
    rw [htext]
    exact .cons hfield (programText_of_parseFields hrest)
  · rw [splitFields_of_comma_not_mem hcomma, parseFields_singleton_eq_some_iff] at h
    obtain ⟨v, hfield, rfl⟩ := h
    exact .last hfield
termination_by text.length
decreasing_by rw [htext, List.length_append, List.length_cons]; omega

theorem parseFields_splitFields_eq_some_iff {text : List Char} {ws : List Int} :
    parseFields (splitFields text) = some ws ↔ ProgramText text ws := by
  refine ⟨programText_of_parseFields, fun h => ?_⟩
  induction h with
  | last h =>
    rw [splitFields_of_comma_not_mem h.comma_not_mem, parseFields_singleton_eq_some_iff]
    exact ⟨_, h, rfl⟩
  | cons h hs ih =>
    rw [splitFields_append_comma h.comma_not_mem, parseFields_cons_eq_some_iff]
    exact ⟨_, _, h, ih, rfl⟩

/-- Settles O50: the fields give the grammar's sequence, and the parser checks the rest of it itself. -/
theorem parserAcceptsExactlyTheGrammar : Obligations.ParserAcceptsExactlyTheGrammar := by
  intro c text ws
  rw [← parseFields_splitFields_eq_some_iff, parseProgram]
  cases parseFields (splitFields text) with
  | none => simp
  | some vs =>
    simp only [Option.some.injEq, Option.ite_none_right_eq_some, Bool.and_eq_true, List.all_eq_true]
    constructor
    · rintro ⟨hok, rfl⟩; exact ⟨rfl, hok⟩
    · rintro ⟨rfl, hok⟩; exact ⟨hok, rfl⟩

end Sys2Proof.Machine

/-! ### A run by its first step that ends it (50_host_interface.md R204 to R206)

Both run commands go on while the next step is of one kind and are ended by the first step that is not, so
what R206 says of budgets is said once, of any run of that form. -/

namespace Sys2Proof.Machine

/-- The next step answers CONTINUE: RUN_UNTIL_COMPLETE goes on (R204). -/
def Continues (s : State) : Prop := (stepResponse s).2 = .continued

/-- The next step answers CONTINUE and is no OUT: RUN_UNTIL_OUTPUT goes on (R205). -/
def ContinuesWithoutOut (s : State) : Prop := (stepResponse s).2 = .continued ∧ nextIsOut s = false

/-- A run with a budget goes on while `goes` holds of the state, a step from a state where it does not ends it
with an answer, and more budget does not change the end of a run. -/
structure RunsWhile (run : Nat → State → State × Response) (goes : State → Prop) : Prop where
  zero : ∀ s, run 0 s = (s, .budgetExhausted)
  goOn : ∀ {s}, goes s → ∀ n, run (n + 1) s = run n (stepResponse s).1
  answers : ∀ {s}, ¬ goes s → (run 1 s).2 ≠ .budgetExhausted
  eq_of_le : ∀ {n m}, n ≤ m → ∀ {s}, (run n s).2 ≠ .budgetExhausted → run m s = run n s

/-- The last of the steps, where the definition takes the first. -/
theorem afterSteps_succ (n : Nat) (s : State) : afterSteps (n + 1) s = (stepResponse (afterSteps n s)).1 := by
  induction n generalizing s with
  | zero => rfl
  | succ n ih => exact ih (stepResponse s).1

/-- Either a predicate holds at every number below a bound, or there is a first one where it fails. -/
theorem forall_lt_or_exists_first_not (p : Nat → Prop) (b : Nat) :
    (∀ k < b, p k) ∨ ∃ k < b, (∀ j < k, p j) ∧ ¬ p k := by
  induction b with
  | zero => exact .inl nofun
  | succ b ih =>
    rcases ih with hall | ⟨k, hkb, hk⟩
    · by_cases hb : p b
      · exact .inl (Nat.forall_lt_succ_right.2 ⟨hall, hb⟩)
      · exact .inr ⟨b, b.lt_succ_self, hall, hb⟩
    · exact .inr ⟨k, hkb.trans b.lt_succ_self, hk⟩

namespace RunsWhile

variable {run : Nat → State → State × Response} {goes : State → Prop}

theorem run_add (h : RunsWhile run goes) {k : Nat} {s : State} (hk : ∀ j < k, goes (afterSteps j s)) (n : Nat) :
    run (n + k) s = run n (afterSteps k s) := by
  induction k generalizing s with
  | zero => rfl
  | succ k ih =>
    have hfirst : run (n + (k + 1)) s = run (n + k) (stepResponse s).1 := h.goOn (hk 0 k.succ_pos) (n + k)
    exact hfirst.trans (ih fun j hj => hk (j + 1) (Nat.succ_lt_succ hj))

theorem run_of_all_go (h : RunsWhile run goes) {b : Nat} {s : State} (hb : ∀ k < b, goes (afterSteps k s)) :
    run b s = (afterSteps b s, .budgetExhausted) := by
  have hrun := h.run_add hb 0
  rwa [Nat.zero_add, h.zero] at hrun

/-- The step that ends the run gives its answer, within the budget. -/
theorem run_of_first_stop (h : RunsWhile run goes) {b k : Nat} {s : State} (hkb : k < b)
    (hk : ∀ j < k, goes (afterSteps j s)) (hstop : ¬ goes (afterSteps k s)) :
    run b s = run 1 (afterSteps k s) := by
  obtain ⟨n, rfl⟩ := Nat.exists_eq_add_of_lt hkb
  rw [show k + n + 1 = n + 1 + k by omega, h.run_add hk, h.eq_of_le (Nat.le_add_left 1 n) (h.answers hstop)]

/-- What a run can do: use up its budget, or be ended by its first step that does not go on. -/
theorem run_cases (h : RunsWhile run goes) (b : Nat) (s : State) :
    ((∀ k < b, goes (afterSteps k s)) ∧ run b s = (afterSteps b s, .budgetExhausted)) ∨
    ∃ k < b, (∀ j < k, goes (afterSteps j s)) ∧ ¬ goes (afterSteps k s) ∧ run b s = run 1 (afterSteps k s) := by
  rcases forall_lt_or_exists_first_not (fun k => goes (afterSteps k s)) b with hall | ⟨k, hkb, hk, hstop⟩
  · exact .inl ⟨hall, h.run_of_all_go hall⟩
  · exact .inr ⟨k, hkb, hk, hstop, h.run_of_first_stop hkb hk hstop⟩

theorem budgetExhausted_iff (h : RunsWhile run goes) (b : Nat) (s : State) :
    (run b s).2 = .budgetExhausted ↔ ∀ k < b, goes (afterSteps k s) := by
  constructor
  · intro hx
    rcases h.run_cases b s with ⟨hall, -⟩ | ⟨k, -, -, hstop, hrun⟩
    · exact hall
    · exact absurd (hrun ▸ hx) (h.answers hstop)
  · intro hall
    rw [h.run_of_all_go hall]

theorem fst_of_budgetExhausted (h : RunsWhile run goes) {b : Nat} {s : State}
    (hx : (run b s).2 = .budgetExhausted) : (run b s).1 = afterSteps b s := by
  rw [h.run_of_all_go ((h.budgetExhausted_iff b s).1 hx)]

end RunsWhile

theorem unbounded_eq_some_iff {run : Nat → State → State × Response} {n : Nat} {s : State}
    {x : State × Response} : unbounded run n s = some x ↔ run n s = x ∧ x.2 ≠ .budgetExhausted := by
  constructor
  · intro h
    obtain rfl := eq_of_unbounded_eq_some h
    exact ⟨rfl, response_ne_of_unbounded_eq_some h⟩
  · rintro ⟨rfl, h⟩
    rw [unbounded, if_neg h]

end Sys2Proof.Machine

/-! ### RUN_UNTIL_COMPLETE (R204, R216, R220) -/

namespace Sys2Proof.Machine

/-- A step that does not continue gives the run its answer: COMPLETE after a HALT, and what it answers itself
otherwise. -/
theorem runUntilComplete_one_of_not_continues {s : State} (h : ¬ Continues s) :
    ((stepResponse s).2 = .halted ∧
      runUntilComplete 1 s = ((stepResponse s).1, .complete (snapshotWords (stepResponse s).1))) ∨
    runUntilComplete 1 s = ((stepResponse s).1, .result (stepResponse s).2) := by
  by_cases hh : (stepResponse s).2 = .halted
  · exact .inl ⟨hh, runUntilComplete_halted hh 0⟩
  · exact .inr (runUntilComplete_result rfl h hh 0)

theorem runsWhile_runUntilComplete : RunsWhile runUntilComplete Continues where
  zero := runUntilComplete_zero
  goOn h := runUntilComplete_continued h
  answers h := by rcases runUntilComplete_one_of_not_continues h with ⟨-, he⟩ | he <;> rw [he] <;> nofun
  eq_of_le := runUntilComplete_eq_of_le

section

variable {b k : Nat} {s : State}

theorem runUntilComplete_of_first_halted (hkb : k < b) (hk : ∀ j < k, Continues (afterSteps j s))
    (h : (stepResponse (afterSteps k s)).2 = .halted) :
    runUntilComplete b s = (afterSteps (k + 1) s, .complete (snapshotWords (afterSteps (k + 1) s))) := by
  have hstop : ¬ Continues (afterSteps k s) := by simp [Continues, h]
  rw [runsWhile_runUntilComplete.run_of_first_stop hkb hk hstop, runUntilComplete_halted h, afterSteps_succ]

theorem runUntilComplete_of_first_result (hkb : k < b) (hk : ∀ j < k, Continues (afterSteps j s)) {r : StepResult}
    (h : (stepResponse (afterSteps k s)).2 = r) (hc : r ≠ .continued) (hh : r ≠ .halted) :
    runUntilComplete b s = (afterSteps (k + 1) s, .result r) := by
  have hstop : ¬ Continues (afterSteps k s) := by rwa [Continues, h]
  rw [runsWhile_runUntilComplete.run_of_first_stop hkb hk hstop, runUntilComplete_result h hc hh, afterSteps_succ]

end

theorem Committed.eq_of_halted {i : Instr} {s t : State} {r : StepResult} (h : Committed i s t r)
    (hr : r = .halted) : t = { s with halted := true } := by
  cases h with
  | halt => rfl
  | _ => cases hr

/-- A step that answers HALTED leaves HALTED set and no fault recorded. -/
theorem succeeded_of_stepResponse_halted {s : State} (h : (stepResponse s).2 = .halted) :
    (stepResponse s).1.Succeeded := by
  obtain ⟨hfr, -, -⟩ := (stepResponse_halted_iff s).1 h
  obtain ⟨i, -, hc⟩ := committed_of_response_ne_fault (s := s) (by simp [h])
  rw [hc.eq_of_halted h]
  exact ⟨rfl, hfr⟩

theorem length_snapshotWords (s : State) : (snapshotWords s).length = s.extent := by
  rw [snapshotWords_eq_map, List.length_map, List.length_range]

/-- Settles O56: the run is its first step that does not continue. -/
theorem completeIsASuccessfulEnd : Obligations.CompleteIsASuccessfulEnd := by
  refine fun b s => ⟨fun t ws h => ?_, fun k hkb hk => ?_, fun t r => exists_congr fun n => unbounded_eq_some_iff⟩
  · rcases runsWhile_runUntilComplete.run_cases b s with ⟨-, hrun⟩ | ⟨k, hkb, hk, hstop, hrun⟩
    · cases hrun.symm.trans h
    · rcases runUntilComplete_one_of_not_continues hstop with ⟨hhalt, he⟩ | he
      · cases (hrun.trans he).symm.trans h
        exact ⟨succeeded_of_stepResponse_halted hhalt, length_snapshotWords _, rfl, k, hkb,
          (afterSteps_succ k s).symm, hhalt, hk⟩
      · cases (hrun.trans he).symm.trans h
  · exact ⟨runUntilComplete_of_first_halted hkb hk,
      fun h => runUntilComplete_of_first_result hkb hk h nofun nofun,
      fun h => runUntilComplete_of_first_result hkb hk h nofun nofun,
      fun _ _ h => runUntilComplete_of_first_result hkb hk h nofun nofun⟩

end Sys2Proof.Machine

/-! ### RUN_UNTIL_OUTPUT (R205) -/

namespace Sys2Proof.Machine

theorem nextIsOut_iff (s : State) : nextIsOut s = true ↔ ∃ p, fetchInstr s = .ok (.out p) := by
  unfold nextIsOut
  cases fetchInstr s with
  | error k => simp
  | ok i => cases i <;> simp [Instr.opcode]

theorem Committed.outq_eq_append {p : Param} {s t : State} {r : StepResult} (h : Committed (.out p) s t r)
    (hr : r = .continued) : ∃ v, t.outq = s.outq ++ [v] := by
  cases h with
  | output _ v => exact ⟨v, rfl⟩
  | _ => grind

/-- OUT_POP never finds OUTQ empty after a committed OUT. -/
theorem outq_of_out_continued {s : State} (ho : nextIsOut s = true) (hc : (stepResponse s).2 = .continued) :
    ∃ v q, (stepResponse s).1.outq = v :: q := by
  obtain ⟨p, hp⟩ := (nextIsOut_iff s).1 ho
  obtain ⟨i, hi, hcommit⟩ := committed_of_response_ne_fault (s := s) (by simp [hc])
  obtain rfl : i = .out p := by rw [hp] at hi; cases hi; rfl
  obtain ⟨v, hv⟩ := hcommit.outq_eq_append hc
  exact List.exists_cons_of_ne_nil (by simp [hv])

theorem runUntilOutput_out_value {s : State} (ho : nextIsOut s = true) (hc : (stepResponse s).2 = .continued)
    (n : Nat) : ∃ v q, (stepResponse s).1.outq = v :: q ∧
      runUntilOutput (n + 1) s = ({ (stepResponse s).1 with outq := q }, .value v) := by
  obtain ⟨v, q, hq⟩ := outq_of_out_continued ho hc
  exact ⟨v, q, hq, by rw [runUntilOutput_out hc ho, outPopCommand_of_cons hq]⟩

/-- A step that ends the run gives its answer: the oldest entry of OUTQ after a committed OUT, NO_VALUE after
a HALT, and what the step answers itself otherwise. -/
theorem runUntilOutput_one_of_not_continuesWithoutOut {s : State} (h : ¬ ContinuesWithoutOut s) :
    (nextIsOut s = true ∧ (stepResponse s).2 = .continued ∧
      ∃ v q, (stepResponse s).1.outq = v :: q ∧
        runUntilOutput 1 s = ({ (stepResponse s).1 with outq := q }, .value v)) ∨
    runUntilOutput 1 s = ((stepResponse s).1, .noValue) ∨
    runUntilOutput 1 s = ((stepResponse s).1, .result (stepResponse s).2) := by
  by_cases hc : (stepResponse s).2 = .continued
  · have ho : nextIsOut s = true := eq_true_of_ne_false fun ho => h ⟨hc, ho⟩
    exact .inl ⟨ho, hc, runUntilOutput_out_value ho hc 0⟩
  by_cases hh : (stepResponse s).2 = .halted
  · exact .inr (.inl (runUntilOutput_halted hh 0))
  · exact .inr (.inr (runUntilOutput_result rfl hc hh 0))

theorem runsWhile_runUntilOutput : RunsWhile runUntilOutput ContinuesWithoutOut where
  zero := runUntilOutput_zero
  goOn h := runUntilOutput_continued h.1 h.2
  answers h := by
    rcases runUntilOutput_one_of_not_continuesWithoutOut h with ⟨-, -, v, q, -, he⟩ | he | he <;> rw [he] <;> nofun
  eq_of_le := runUntilOutput_eq_of_le

theorem runUntilOutput_ne_empty (b : Nat) (s : State) : (runUntilOutput b s).2 ≠ .empty := by
  rcases runsWhile_runUntilOutput.run_cases b s with ⟨-, hrun⟩ | ⟨k, -, -, hstop, hrun⟩ <;> rw [hrun]
  · nofun
  · rcases runUntilOutput_one_of_not_continuesWithoutOut hstop with ⟨-, -, v, q, -, he⟩ | he | he <;> rw [he] <;> nofun

section

variable {b k : Nat} {s : State}

theorem runUntilOutput_of_first_out (hkb : k < b) (hk : ∀ j < k, ContinuesWithoutOut (afterSteps j s))
    (ho : nextIsOut (afterSteps k s) = true) (hc : (stepResponse (afterSteps k s)).2 = .continued) :
    ∃ v q, (afterSteps (k + 1) s).outq = v :: q ∧
      runUntilOutput b s = ({ afterSteps (k + 1) s with outq := q }, .value v) := by
  have hstop : ¬ ContinuesWithoutOut (afterSteps k s) := by simp [ContinuesWithoutOut, ho]
  rw [runsWhile_runUntilOutput.run_of_first_stop hkb hk hstop, afterSteps_succ]
  exact runUntilOutput_out_value ho hc 0

theorem runUntilOutput_of_first_halted (hkb : k < b) (hk : ∀ j < k, ContinuesWithoutOut (afterSteps j s))
    (h : (stepResponse (afterSteps k s)).2 = .halted) : runUntilOutput b s = (afterSteps (k + 1) s, .noValue) := by
  have hstop : ¬ ContinuesWithoutOut (afterSteps k s) := by simp [ContinuesWithoutOut, h]
  rw [runsWhile_runUntilOutput.run_of_first_stop hkb hk hstop, runUntilOutput_halted h, afterSteps_succ]

theorem runUntilOutput_of_first_result (hkb : k < b) (hk : ∀ j < k, ContinuesWithoutOut (afterSteps j s))
    {r : StepResult} (h : (stepResponse (afterSteps k s)).2 = r) (hc : r ≠ .continued) (hh : r ≠ .halted) :
    runUntilOutput b s = (afterSteps (k + 1) s, .result r) := by
  have hstop : ¬ ContinuesWithoutOut (afterSteps k s) := fun hgo => hc (h.symm.trans hgo.1)
  rw [runsWhile_runUntilOutput.run_of_first_stop hkb hk hstop, runUntilOutput_result h hc hh, afterSteps_succ]

end

/-- Settles O57: the run is its first step that is an OUT or does not continue. -/
theorem runUntilOutputReturnsTheOldest : Obligations.RunUntilOutputReturnsTheOldest := by
  refine ⟨nextIsOut_iff, fun b s => ⟨runUntilOutput_ne_empty b s, fun t v h => ?_, fun k hkb hk => ?_,
    fun t r => exists_congr fun n => unbounded_eq_some_iff⟩⟩
  · rcases runsWhile_runUntilOutput.run_cases b s with ⟨-, hrun⟩ | ⟨k, hkb, hk, hstop, hrun⟩
    · cases hrun.symm.trans h
    · rcases runUntilOutput_one_of_not_continuesWithoutOut hstop with ⟨ho, hc, w, q, hq, he⟩ | he | he
      · cases (hrun.trans he).symm.trans h
        rw [← afterSteps_succ] at hq ⊢
        exact ⟨k, hkb, (nextIsOut_iff _).1 ho, hc, hq, rfl, hk⟩
      · cases (hrun.trans he).symm.trans h
      · cases (hrun.trans he).symm.trans h
  · exact ⟨fun hout => runUntilOutput_of_first_out hkb hk ((nextIsOut_iff _).2 hout),
      runUntilOutput_of_first_halted hkb hk,
      fun h => runUntilOutput_of_first_result hkb hk h nofun nofun,
      fun h => runUntilOutput_of_first_result hkb hk h nofun nofun,
      fun _ _ h => runUntilOutput_of_first_result hkb hk h nofun nofun⟩

end Sys2Proof.Machine

/-! ### Budgets (R206) -/

namespace Sys2Proof.Machine

theorem runUntilComplete_one_fst (s : State) : (runUntilComplete 1 s).1 = (stepResponse s).1 :=
  (runUntilComplete_succ_fst 0 s).elim id id

theorem runUntilOutput_one_fst (s : State) : (runUntilOutput 1 s).1 = (stepResponse s).1 ∨
    (runUntilOutput 1 s).1 = (outPopCommand (stepResponse s).1).1 := by
  rcases runUntilOutput_succ_fst 0 s with h | h | h
  · exact .inl h
  · exact .inr h
  · exact .inl h

/-- Settles O55: what `RunsWhile` says of both runs, and the state a run leaves by how it ends. -/
theorem budgetBoundsTheRun : Obligations.BudgetBoundsTheRun := by
  refine fun b s => ⟨runsWhile_runUntilComplete.budgetExhausted_iff b s,
    runsWhile_runUntilComplete.fst_of_budgetExhausted, ?_, runsWhile_runUntilOutput.budgetExhausted_iff b s,
    runsWhile_runUntilOutput.fst_of_budgetExhausted, ?_, rfl, rfl⟩
  · rcases runsWhile_runUntilComplete.run_cases b s with ⟨-, hrun⟩ | ⟨k, hkb, -, -, hrun⟩
    · exact ⟨b, le_rfl, by rw [hrun]⟩
    · exact ⟨k + 1, hkb, by rw [hrun, runUntilComplete_one_fst, afterSteps_succ]⟩
  · rcases runsWhile_runUntilOutput.run_cases b s with ⟨-, hrun⟩ | ⟨k, hkb, -, -, hrun⟩
    · exact ⟨b, le_rfl, .inl (by rw [hrun])⟩
    · refine ⟨k + 1, hkb, ?_⟩
      rw [hrun, afterSteps_succ]
      exact runUntilOutput_one_fst _

end Sys2Proof.Machine

/-! ### Faults are precise and sticky (60_exceptions.md R245, R246) -/

namespace Sys2Proof.Machine

/-- A commit that answers a fault is the entry of that fault, at the IP the step began with. -/
theorem Committed.eq_takeFault {i : Instr} {s t : State} {r : StepResult} {k : FaultKind} {ip : Word}
    (h : Committed i s t r) (hr : r = .fault k ip) : ip = s.ip ∧ t = takeFault k s := by
  cases h with
  | fault k' => cases hr; exact ⟨rfl, rfl⟩
  | _ => cases hr

/-- A step that raises a fault, where none was recorded, is the entry of that fault. -/
theorem stepResponse_fst_of_fault {s : State} {k : FaultKind} {ip : Word} (hfr : s.fr = none)
    (h : (stepResponse s).2 = .fault k ip) : ip = s.ip ∧ (stepResponse s).1 = takeFault k s := by
  rcases stepResponse_committed s with ⟨r, hr, -⟩ | ⟨-, -, he⟩ | ⟨k', -, -, -, he⟩ | ⟨i, -, -, -, hc⟩
  · rw [hfr] at hr; cases hr
  · rw [he] at h ⊢; cases h; exact ⟨rfl, rfl⟩
  · rw [he] at h ⊢; cases h; exact ⟨rfl, rfl⟩
  · exact hc.eq_takeFault h

theorem stepResponse_takeFault (k : FaultKind) (s : State) :
    stepResponse (takeFault k s) = (takeFault k s, .fault k s.ip) :=
  stepResponse_of_fr (takeFault_fr k s)

theorem afterSteps_of_stepResponse_fst_eq {s : State} (h : (stepResponse s).1 = s) (n : Nat) :
    afterSteps n s = s := by
  induction n with
  | zero => rfl
  | succ n ih => rw [afterSteps, h, ih]

/-- Settles O33: the step is a fault entry, which ends either run, and a recorded fault is a fixed point of the
step. -/
theorem faultsArePreciseAndSticky : Obligations.FaultsArePreciseAndSticky := by
  intro s k ip hfr h
  obtain ⟨hip, hstep⟩ := stepResponse_fst_of_fault hfr h
  have hfixed : (stepResponse (takeFault k s)).1 = takeFault k s := by rw [stepResponse_takeFault]
  refine ⟨hip, hstep, fun n => ⟨?_, ?_⟩, fun n => ?_⟩
  · rw [runUntilComplete_result h nofun nofun, hstep]
  · rw [runUntilOutput_result h nofun nofun, hstep]
  · rw [afterSteps_of_stepResponse_fst_eq hfixed, stepResponse_takeFault, hip]
    exact ⟨rfl, rfl⟩

end Sys2Proof.Machine

/-! ### Several instances (60_exceptions.md R258) -/

namespace Sys2Proof.Machine

/-- A command to one of several instances is that command on the one, which its result then replaces. -/
theorem commandTo_eq_some {fuel k : Nat} {c : Command} {ss ss' : List State} {r : Response}
    (h : commandTo fuel k c ss = some (ss', r)) :
    ∃ s t, ss[k]? = some s ∧ command fuel c s = some (t, r) ∧ ss' = ss.set k t := by
  induction ss generalizing k ss' with
  | nil => simp [commandTo] at h
  | cons s ss ih =>
    cases k with
    | zero =>
      obtain ⟨⟨t, r'⟩, hcmd, he⟩ := Option.map_eq_some_iff.1 h
      cases he
      exact ⟨s, t, rfl, hcmd, rfl⟩
    | succ j =>
      obtain ⟨⟨ts, r'⟩, hrec, he⟩ := Option.map_eq_some_iff.1 h
      cases he
      obtain ⟨u, t, hget, hcmd, rfl⟩ := ih hrec
      exact ⟨u, t, hget, hcmd, rfl⟩

/-- Settles O60: the result is the list with one entry replaced. -/
theorem instancesShareNoState : Obligations.InstancesShareNoState := by
  intro fuel k c ss ss' r h
  obtain ⟨s, t, hget, hcmd, rfl⟩ := commandTo_eq_some h
  have hk : k < ss.length := (List.getElem?_eq_some_iff.1 hget).1
  exact ⟨List.length_set, fun j hj => List.getElem?_set_ne hj.symm, s, t, hget, hcmd, List.getElem?_set_self hk⟩

end Sys2Proof.Machine

/-! ### Power-on and RESET (70_reset_and_hazards.md R270, R271) -/

namespace Sys2Proof.Machine

/-- Settles O47: memory after a reset is the program; a reset reads only PROGRAM, the queues and the parameters, and
keeps them, so that a second one finds nothing to change. -/
theorem resetRestoresTheProgram : Obligations.ResetRestoresTheProgram := fun s =>
  ⟨memRead_resetState s, resetState_extent s, resetState_ip s, resetState_rb s, resetState_halted s,
    resetState_fr s, resetState_inq s, resetState_outq s, resetState_program s, rfl⟩

theorem memRead_powerOn (a : Nat) : memRead State.reset a = 0 := Memory.read_nil a

/-- Settles O46: the first step fetches the word 0, which is no opcode. -/
theorem powerOnState : Obligations.PowerOnState :=
  have hfetch : fetchInstr State.reset = .error .invalidOpcode :=
    fetchInstr_of_memRead_eq_zero le_rfl (memRead_powerOn _)
  ⟨rfl, memRead_powerOn, rfl, rfl, rfl, rfl, rfl, rfl, rfl, step_of_fetchInstr_error rfl rfl hfetch⟩

end Sys2Proof.Machine
